-- ==== Sys2Proof/Word.lean ====
section
/-! DEFINITION. The values of the LC3-VM CORE: words, bytes and register numbers (spec 00_scope.md R5, R9, R16; 10_state.md R20). -/

namespace Sys2Proof

/-- A register's contents, a memory word, an address or an instruction: 16 bits, unsigned (R9). `+` on it is
addition modulo 65536, `&&&`, `|||` and `~~~` are the bitwise operations of R13. -/
abbrev Word := BitVec 16

/-- What the console ports carry: 8 bits (R16). -/
abbrev Byte := BitVec 8

/-- The number of a general register, 0 to 7 (R20). -/
abbrev Reg := Fin 8

end Sys2Proof
end

