-- ==== Sys2Proof/Syntax.lean ====
section
/-! DEFINITION. The instructions: one constructor per row of spec/opcode_table.json, with the operands of R84. -/

namespace Sys2Proof

/-- The 26 rows of the opcode table (R86, R87, R96). A row whose bits are fixed has no operand; bits that no field uses
(R90) are no operand of any constructor. -/
inductive Instr where
  /-- ADD, register mode (R110). -/
  | addReg (dr sr1 sr2 : Reg)
  /-- ADD, immediate mode (R111). -/
  | addImm (dr sr1 : Reg) (imm5 : BitVec 5)
  /-- AND, register mode (R115). -/
  | andReg (dr sr1 sr2 : Reg)
  /-- AND, immediate mode (R116). -/
  | andImm (dr sr1 : Reg) (imm5 : BitVec 5)
  /-- NOT (R120). -/
  | not (dr sr1 : Reg)
  /-- BR; bit 2 of `nzp` is n, bit 1 is z, bit 0 is p (R130; log 11). -/
  | br (nzp : BitVec 3) (pcOffset9 : BitVec 9)
  /-- RET, the JMP whose base register is R7 (R136). -/
  | ret
  /-- JMP (R135). -/
  | jmp (baseR : Reg)
  /-- JSR (R140). -/
  | jsr (pcOffset11 : BitVec 11)
  /-- JSRR (R142). -/
  | jsrr (baseR : Reg)
  /-- LD (R150). -/
  | ld (dr : Reg) (pcOffset9 : BitVec 9)
  /-- LDI (R154). -/
  | ldi (dr : Reg) (pcOffset9 : BitVec 9)
  /-- LDR (R158). -/
  | ldr (dr baseR : Reg) (offset6 : BitVec 6)
  /-- LEA (R162). -/
  | lea (dr : Reg) (pcOffset9 : BitVec 9)
  /-- ST (R165). -/
  | st (sr : Reg) (pcOffset9 : BitVec 9)
  /-- STI (R168). -/
  | sti (sr : Reg) (pcOffset9 : BitVec 9)
  /-- STR (R172). -/
  | str (sr baseR : Reg) (offset6 : BitVec 6)
  /-- TRAP 0x20, the GETC service (R183). -/
  | getc
  /-- TRAP 0x21, the OUT service (R185). -/
  | out
  /-- TRAP 0x22, the PUTS service (R188). -/
  | puts
  /-- TRAP 0x23, the IN service (R193). -/
  | inChar
  /-- TRAP 0x24, the PUTSP service (R196). -/
  | putsp
  /-- TRAP 0x25, the HALT service (R198). -/
  | halt
  /-- TRAP with any vector: the generic row (R180, R199). -/
  | trap (trapvect8 : Byte)
  /-- RTI, which halts (R210). -/
  | rti
  /-- RES, the reserved opcode, which halts (R212). -/
  | res
  deriving DecidableEq, Repr

end Sys2Proof
end

