-- ==== Sys2Proof/WellFormed.lean ====
section
/-! DEFINITION. Which terms of Instr are the name of their own words (spec 30_encoding.md R96). The operands' types bound
every field, so what is left to check is the row: the words of `jmp` with base R7 are RET's, and the words of `trap` with
a recognised vector are those of the service's own row. -/

namespace Sys2Proof

/-- The six vectors that have a row of their own (R180). -/
def recognisedVector (v : Byte) : Bool :=
  v == 0x20 || v == 0x21 || v == 0x22 || v == 0x23 || v == 0x24 || v == 0x25

/-- The more specific row names the instruction (R96). -/
def Instr.wellFormed : Instr → Bool
  | .addReg _ _ _ => true
  | .addImm _ _ _ => true
  | .andReg _ _ _ => true
  | .andImm _ _ _ => true
  | .not _ _ => true
  | .br _ _ => true
  | .ret => true
  | .jmp baseR => baseR != 7
  | .jsr _ => true
  | .jsrr _ => true
  | .ld _ _ => true
  | .ldi _ _ => true
  | .ldr _ _ _ => true
  | .lea _ _ => true
  | .st _ _ => true
  | .sti _ _ => true
  | .str _ _ _ => true
  | .getc => true
  | .out => true
  | .puts => true
  | .inChar => true
  | .putsp => true
  | .halt => true
  | .trap v => !recognisedVector v
  | .rti => true
  | .res => true

end Sys2Proof
end

