-- ==== Sys2Proof/Decode.lean ====
section
/-! DEFINITION. Decoding a word (spec 30_encoding.md R80 to R93) and encoding an instruction (R87, R90). Decoding is
total on words: each of the 16 opcode values selects a handler and no word is illegal (R83, R92), so the decoder has
nothing to reject; `decodeTableWord` rejects only a number that is no word. -/

namespace Sys2Proof

/-! ### The fields of a word (R84) -/

/-- `op`, bits 15 to 12. -/
def fieldOp (w : Word) : BitVec 4 := w.extractLsb' 12 4
/-- `DR`, and `SR` of a store, bits 11 to 9. -/
def fieldDR (w : Word) : Reg := (w.extractLsb' 9 3).toFin
/-- `SR1` and `BaseR`, bits 8 to 6. -/
def fieldBaseR (w : Word) : Reg := (w.extractLsb' 6 3).toFin
/-- `SR2`, bits 2 to 0. -/
def fieldSR2 (w : Word) : Reg := (w.extractLsb' 0 3).toFin
/-- `nzp`, bits 11 to 9. -/
def fieldNzp (w : Word) : BitVec 3 := w.extractLsb' 9 3
/-- `mode`, bit 5: whether ADD and AND take an immediate (R89). -/
def fieldMode (w : Word) : Bool := w.getLsbD 5
/-- `long`, bit 11: JSR rather than JSRR (R89). -/
def fieldLong (w : Word) : Bool := w.getLsbD 11
/-- `imm5`, bits 4 to 0. -/
def fieldImm5 (w : Word) : BitVec 5 := w.extractLsb' 0 5
/-- `offset6`, bits 5 to 0. -/
def fieldOffset6 (w : Word) : BitVec 6 := w.extractLsb' 0 6
/-- `PCoffset9`, bits 8 to 0. -/
def fieldPCoffset9 (w : Word) : BitVec 9 := w.extractLsb' 0 9
/-- `PCoffset11`, bits 10 to 0. -/
def fieldPCoffset11 (w : Word) : BitVec 11 := w.extractLsb' 0 11
/-- `trapvect8`, bits 7 to 0. -/
def fieldTrapvect8 (w : Word) : Byte := w.extractLsb' 0 8

/-! ### Decoding -/

/-- The row of a JMP word: RET when the base register is R7 (R136, R96). -/
def decodeJmp (baseR : Reg) : Instr :=
  if baseR = 7 then .ret else .jmp baseR

/-- The row of a TRAP word: the service's own row when the vector is one of the six (R180, R96). -/
def decodeTrap (v : Byte) : Instr :=
  if v = 0x20 then .getc
  else if v = 0x21 then .out
  else if v = 0x22 then .puts
  else if v = 0x23 then .inChar
  else if v = 0x24 then .putsp
  else if v = 0x25 then .halt
  else .trap v

/-- The instruction a word holds (R83, R86, R89). The opcode values other than those of RTI and RES are PRESUMED
(log 9). -/
def decode (w : Word) : Instr :=
  match fieldOp w with
  | 0b0000#4 => .br (fieldNzp w) (fieldPCoffset9 w)
  | 0b0001#4 =>
    if fieldMode w then .addImm (fieldDR w) (fieldBaseR w) (fieldImm5 w)
    else .addReg (fieldDR w) (fieldBaseR w) (fieldSR2 w)
  | 0b0010#4 => .ld (fieldDR w) (fieldPCoffset9 w)
  | 0b0011#4 => .st (fieldDR w) (fieldPCoffset9 w)
  | 0b0100#4 => if fieldLong w then .jsr (fieldPCoffset11 w) else .jsrr (fieldBaseR w)
  | 0b0101#4 =>
    if fieldMode w then .andImm (fieldDR w) (fieldBaseR w) (fieldImm5 w)
    else .andReg (fieldDR w) (fieldBaseR w) (fieldSR2 w)
  | 0b0110#4 => .ldr (fieldDR w) (fieldBaseR w) (fieldOffset6 w)
  | 0b0111#4 => .str (fieldDR w) (fieldBaseR w) (fieldOffset6 w)
  | 0b1000#4 => .rti
  | 0b1001#4 => .not (fieldDR w) (fieldBaseR w)
  | 0b1010#4 => .ldi (fieldDR w) (fieldPCoffset9 w)
  | 0b1011#4 => .sti (fieldDR w) (fieldPCoffset9 w)
  | 0b1100#4 => decodeJmp (fieldBaseR w)
  | 0b1101#4 => .res
  | 0b1110#4 => .lea (fieldDR w) (fieldPCoffset9 w)
  -- the one value left is 1111 (all 16 values are mapped, R83)
  | _ => decodeTrap (fieldTrapvect8 w)

/-- The instruction whose bits are the number `w`, numbered as spec/opcode_table.json numbers them (every row is one
16-bit word, R80); no instruction when `w` does not fit the row's bits or the row is longer than a word. -/
def decodeTableWord (nbits w : Nat) : Option Instr :=
  if nbits ≤ 16 ∧ w < 2 ^ nbits then some (decode (BitVec.ofNat 16 w)) else none

/-! ### Encoding -/

/-- The three bits of a register field (R20). -/
def regBits (r : Reg) : BitVec 3 := BitVec.ofFin r

/-- Formats OPR: op, DR, SR1, mode 0, two unused bits, SR2 (R87). -/
def encodeOpr (op : BitVec 4) (dr sr1 sr2 : Reg) : Word :=
  op ++ regBits dr ++ regBits sr1 ++ 0b000#3 ++ regBits sr2

/-- Format OPI: op, DR, SR1, mode 1, imm5 (R87). -/
def encodeOpi (op : BitVec 4) (dr sr1 : Reg) (imm5 : BitVec 5) : Word :=
  op ++ regBits dr ++ regBits sr1 ++ 0b1#1 ++ imm5

/-- Format PC9: op, DR or SR, PCoffset9 (R87). -/
def encodePc9 (op : BitVec 4) (r : Reg) (off : BitVec 9) : Word :=
  op ++ regBits r ++ off

/-- Format BASE6: op, DR or SR, BaseR, offset6 (R87). -/
def encodeBase6 (op : BitVec 4) (r baseR : Reg) (off : BitVec 6) : Word :=
  op ++ regBits r ++ regBits baseR ++ off

/-- Formats JMP and JSRR: op, three bits (unused, or long = 0 and two unused), BaseR, six unused bits (R87). -/
def encodeBase (op : BitVec 4) (baseR : Reg) : Word :=
  op ++ 0b000#3 ++ regBits baseR ++ 0b000000#6

/-- Format TRAP8: 1111, four unused bits, trapvect8 (R87). -/
def encodeTrap (v : Byte) : Word :=
  0b1111#4 ++ 0b0000#4 ++ v

/-- The canonical word of an instruction (R87); an unused bit is 0, but for NOT's six, which are 1 (R90; log 12). -/
def encode : Instr → Word
  | .addReg dr sr1 sr2 => encodeOpr 0b0001#4 dr sr1 sr2
  | .addImm dr sr1 imm5 => encodeOpi 0b0001#4 dr sr1 imm5
  | .andReg dr sr1 sr2 => encodeOpr 0b0101#4 dr sr1 sr2
  | .andImm dr sr1 imm5 => encodeOpi 0b0101#4 dr sr1 imm5
  | .not dr sr1 => encodeBase6 0b1001#4 dr sr1 0b111111#6
  | .br nzp off => 0b0000#4 ++ nzp ++ off
  | .ret => encodeBase 0b1100#4 7
  | .jmp baseR => encodeBase 0b1100#4 baseR
  | .jsr off => 0b0100#4 ++ 0b1#1 ++ off
  | .jsrr baseR => encodeBase 0b0100#4 baseR
  | .ld dr off => encodePc9 0b0010#4 dr off
  | .ldi dr off => encodePc9 0b1010#4 dr off
  | .ldr dr baseR off => encodeBase6 0b0110#4 dr baseR off
  | .lea dr off => encodePc9 0b1110#4 dr off
  | .st sr off => encodePc9 0b0011#4 sr off
  | .sti sr off => encodePc9 0b1011#4 sr off
  | .str sr baseR off => encodeBase6 0b0111#4 sr baseR off
  | .getc => encodeTrap 0x20
  | .out => encodeTrap 0x21
  | .puts => encodeTrap 0x22
  | .inChar => encodeTrap 0x23
  | .putsp => encodeTrap 0x24
  | .halt => encodeTrap 0x25
  | .trap v => encodeTrap v
  | .rti => 0x8000
  | .res => 0xD000

/-! ### The rows of spec/opcode_table.json (R96) -/

/-- The bits a row fixes: a word is of the row of `i` when `word &&& i.rowMask = i.rowMatch` (R96). -/
def Instr.rowMask : Instr → Word
  | .addReg _ _ _ => 0xF020
  | .addImm _ _ _ => 0xF020
  | .andReg _ _ _ => 0xF020
  | .andImm _ _ _ => 0xF020
  | .not _ _ => 0xF000
  | .br _ _ => 0xF000
  | .ret => 0xF1C0
  | .jmp _ => 0xF000
  | .jsr _ => 0xF800
  | .jsrr _ => 0xF800
  | .ld _ _ => 0xF000
  | .ldi _ _ => 0xF000
  | .ldr _ _ _ => 0xF000
  | .lea _ _ => 0xF000
  | .st _ _ => 0xF000
  | .sti _ _ => 0xF000
  | .str _ _ _ => 0xF000
  | .getc => 0xF0FF
  | .out => 0xF0FF
  | .puts => 0xF0FF
  | .inChar => 0xF0FF
  | .putsp => 0xF0FF
  | .halt => 0xF0FF
  | .trap _ => 0xF000
  | .rti => 0xF000
  | .res => 0xF000

/-- The value of a row's fixed bits. -/
def Instr.rowMatch : Instr → Word
  | .addReg _ _ _ => 0x1000
  | .addImm _ _ _ => 0x1020
  | .andReg _ _ _ => 0x5000
  | .andImm _ _ _ => 0x5020
  | .not _ _ => 0x9000
  | .br _ _ => 0x0000
  | .ret => 0xC1C0
  | .jmp _ => 0xC000
  | .jsr _ => 0x4800
  | .jsrr _ => 0x4000
  | .ld _ _ => 0x2000
  | .ldi _ _ => 0xA000
  | .ldr _ _ _ => 0x6000
  | .lea _ _ => 0xE000
  | .st _ _ => 0x3000
  | .sti _ _ => 0xB000
  | .str _ _ _ => 0x7000
  | .getc => 0xF020
  | .out => 0xF021
  | .puts => 0xF022
  | .inChar => 0xF023
  | .putsp => 0xF024
  | .halt => 0xF025
  | .trap _ => 0xF000
  | .rti => 0x8000
  | .res => 0xD000

/-- The bits of an instruction's word that some field of R84 uses; the others are ignored (R90). -/
def Instr.usedBits : Instr → Word
  | .addReg _ _ _ => 0xFFE7
  | .addImm _ _ _ => 0xFFFF
  | .andReg _ _ _ => 0xFFE7
  | .andImm _ _ _ => 0xFFFF
  | .not _ _ => 0xFFC0
  | .br _ _ => 0xFFFF
  | .ret => 0xF1C0
  | .jmp _ => 0xF1C0
  | .jsr _ => 0xFFFF
  | .jsrr _ => 0xF9C0
  | .ld _ _ => 0xFFFF
  | .ldi _ _ => 0xFFFF
  | .ldr _ _ _ => 0xFFFF
  | .lea _ _ => 0xFFFF
  | .st _ _ => 0xFFFF
  | .sti _ _ => 0xFFFF
  | .str _ _ _ => 0xFFFF
  | .getc => 0xF0FF
  | .out => 0xF0FF
  | .puts => 0xF0FF
  | .inChar => 0xF0FF
  | .putsp => 0xF0FF
  | .halt => 0xF0FF
  | .trap _ => 0xF0FF
  | .rti => 0xF000
  | .res => 0xF000

end Sys2Proof
end

