-- ==== Sys2Proof/Config.lean ====
section
/-! DEFINITION. The implementation parameters of the CORE (spec 00_scope.md R6): the three values the source leaves open. -/

namespace Sys2Proof

/-- The parameters of R6. The spec makes them arguments of the model; the machine's State carries them (no step changes
them), so that a statement over all states is a statement over all their values. -/
structure Config where
  /-- `IN_PROMPT`: the bytes the IN service writes before it reads (R193, D7). -/
  inPrompt : List Byte
  /-- `HALT_BANNER`: the bytes the HALT service writes before the engine halts (R198, D8). -/
  haltBanner : List Byte
  /-- `JSRR_LINK_FIRST`: JSRR writes R7 before it reads its base register (R142, D6). -/
  jsrrLinkFirst : Bool
  deriving DecidableEq, Repr

/-- The unknown `IN_PROMPT` of the machine as it comes from creation: it has no value in Lean (I1, N11; log 7). -/
opaque Config.unknownInPrompt : List Byte

/-- The unknown `HALT_BANNER` of the machine as it comes from creation: it has no value in Lean (I2, N11; log 7). -/
opaque Config.unknownHaltBanner : List Byte

/-- The parameters of a created machine: unknown texts, and R6's default `JSRR_LINK_FIRST = true`. -/
def Config.atCreation : Config where
  inPrompt := Config.unknownInPrompt
  haltBanner := Config.unknownHaltBanner
  jsrrLinkFirst := true

end Sys2Proof
end

