-- ==== Sys2Proof/Machine/State.lean ====
section
/-! DEFINITION. The state of the CORE (spec 10_state.md R20 to R43) and the environment's side of its console ports, as
plain data; the reasons a step could stop; the state after creation reset (70_reset_and_hazards.md R250). -/

namespace Sys2Proof.Machine

/-- The two console ports (R37, R38). -/
inductive ConsolePort where
  | conIn
  | conOut
  deriving DecidableEq, Repr

/-- The CORE's two faults with their records (R220 to R222). A fault of this CORE is a STATE: it sets ES to FAULTED(f),
runs no handler and leaves everything inspectable (R224), so `step` never answers `Outcome.fault`; this type is at the
same time the host's reason type, whose values stand in `EngineState.faulted`. -/
inductive Fault where
  /-- Raised by TRAP with a vector other than 0x20 to 0x25 (R199, R221): the vector and the TRAP's address. Safe: the
  spec describes this end of a run; its record is exactly R221's. -/
  | invalidTrapVector (vector : Byte) (address : Word)
  /-- Raised by a console service when a port answers io_error (R182, R222): the port, the service's vector and the
  TRAP's address. Safe: the spec describes this end of a run; its record is exactly R222's. -/
  | consoleIOError (port : ConsolePort) (vector : Byte) (address : Word)
  deriving DecidableEq, Repr

/-- Why an instruction would have no meaning. -/
inductive Refusal where
  /-- Raised by an arm of `exec` that has no meaning yet; no arm of this model is one. Safe: the machine stops. -/
  | notModelled (mnemonic : String)
  deriving DecidableEq, Repr

/-- The services that wait for console input (R33). -/
inductive ReadService where
  | getc
  | inChar
  deriving DecidableEq, Repr

/-- The services that scan memory up to a zero word (R188, R196). -/
inductive ScanService where
  | puts
  | putsp
  deriving DecidableEq, Repr

/-- What the engine does while RUNNING (R33): it is ready to fetch, or it is inside a TRAP that has not completed. -/
inductive Activity where
  /-- Ready to fetch. -/
  | ready
  /-- WAIT_INPUT: GETC or IN has issued its read request and the port has not answered (R33; log 22). -/
  | waitInput (service : ReadService)
  /-- PUTS or PUTSP has scanned all of memory and met no zero word; the scan goes on for ever (I5; log 8). -/
  | scanning (service : ScanService)
  deriving DecidableEq, Repr

/-- The engine state ES (R32). -/
inductive EngineState where
  | created
  | running (activity : Activity)
  | halted
  | faulted (fault : Fault)
  deriving DecidableEq, Repr

/-- One answer of the console input port to a read request (R38). -/
inductive InAnswer where
  | byte (b : Byte)
  | ioError
  deriving DecidableEq, Repr

/-- How the console output port will answer the coming writes (R37): with ok for ever, or with ok for the next `n` and
then with io_error. The first io_error ends the run (R222), so every behaviour of the port is one of these (log 5). -/
inductive OutPort where
  | accepting
  | failingAfter (n : Nat)
  deriving DecidableEq, Repr

/-- The memory M (R34): the words that differ from what an unlisted address reads as, each with its address, addresses
strictly rising. The unit is the word, the only one the CORE has (R54; log 1). -/
abbrev Memory := List (Nat × Word)

/-- The state of the CORE, and the console's side of its ports. -/
structure State where
  /-- R0 to R7 (R20). -/
  regs : Vector Word 8
  /-- The program counter (R24). -/
  pc : Word
  /-- The condition-flag register COND: POS, ZRO or NEG, and 0b000 before the run starts (R27, R31). -/
  cond : BitVec 3
  /-- The engine state ES (R32). -/
  es : EngineState
  /-- The instruction register (R35): the word of the current instruction, and afterwards of the last one. -/
  ir : Word
  /-- The memory (R34). -/
  mem : Memory
  /-- The implementation parameters (R6); no step changes them. -/
  cfg : Config
  /-- What the console will answer to the coming read requests, in order; empty: not answered yet (R38; log 4). -/
  conIn : List InAnswer
  /-- How the console will answer the coming writes (R37; log 5). -/
  conOut : OutPort
  /-- The bytes written on CON_OUT, oldest first (R37, R260). -/
  output : List Byte
  deriving DecidableEq, Repr

/-- Creation reset (R250): registers, PC and COND zero, memory zero everywhere, ES = CREATED. IR's value is irrelevant
(R43; log 20); the ports' side at creation is the environment's (log 4, 5); the parameters are R6's (log 7). -/
def State.reset : State where
  regs := Vector.replicate 8 0
  pc := 0
  cond := 0
  es := .created
  ir := 0
  mem := []
  cfg := Config.atCreation
  conIn := []
  conOut := .accepting
  output := []

end Sys2Proof.Machine
end

