-- ==== Sys2Proof/Machine/Flags.lean ====
section
/-! DEFINITION. The condition flags (spec 10_state.md R27 to R30). There is no other flag: no carry, no overflow (R13). -/

namespace Sys2Proof.Machine

/-- POS (R27; the encoding is PRESUMED, log 11). -/
def condPos : BitVec 3 := 0b001
/-- ZRO (R27). -/
def condZro : BitVec 3 := 0b010
/-- NEG (R27). -/
def condNeg : BitVec 3 := 0b100

/-- The flag of a 16-bit value (R28): ZRO for 0, NEG when bit 15 is set, POS otherwise. -/
def flagOf (v : Word) : BitVec 3 :=
  if v = 0 then condZro else if v.getLsbD 15 then condNeg else condPos

/-- `setcc(v)` (R28). -/
def State.setcc (v : Word) (s : State) : State := { s with cond := flagOf v }

/-- BR's test `(COND & nzp) != 0b000` (R130). -/
def State.condSelected (nzp : BitVec 3) (s : State) : Bool := s.cond &&& nzp != 0

end Sys2Proof.Machine
end

