-- ==== Sys2Proof/Machine/Ops.lean ====
section
/-! DEFINITION. The operations the meanings share: memory (spec 20_memory.md), registers (10_state.md), fetch
(30_encoding.md R81), entering and leaving a trap, raising a fault (60_exceptions.md R224, R227, R228), halting, and the
console transactions (10_state.md R37, R38). -/

namespace Sys2Proof.Machine

/-! ### Memory (R50 to R53) -/

/-- What an address that is not listed reads as: 0x0000, the value at creation (R34). -/
def Memory.unlisted : Word := 0

/-- `MemRead(a, 1)` (R52). -/
def Memory.read : Memory → Word → Word
  | [], _ => Memory.unlisted
  | (k, v) :: rest, a => if k = a.toNat then v else Memory.read rest a

/-- `MemWrite(a, 1, v)` (R53), keeping the canonical form: the cell goes to its place in address order, and writing what
an unlisted address reads as removes it. -/
def Memory.write : Memory → Word → Word → Memory
  | [], a, v => if v = Memory.unlisted then [] else [(a.toNat, v)]
  | (k, u) :: rest, a, v =>
    if k < a.toNat then (k, u) :: Memory.write rest a v
    else
      let above := if k = a.toNat then rest else (k, u) :: rest
      if v = Memory.unlisted then above else (a.toNat, v) :: above

/-- The canonical form: addresses strictly rising and below 65536, and no cell listed with the unlisted value. -/
def Memory.wf : Memory → Bool
  | [] => true
  | (k, v) :: rest =>
    decide (k < 65536) && v != Memory.unlisted && rest.all (fun cell => decide (k < cell.1)) && Memory.wf rest

/-- Memory access of the engine. -/
def State.memRead (a : Word) (s : State) : Word := Memory.read s.mem a
/-- Memory access of the engine. -/
def State.memWrite (a v : Word) (s : State) : State := { s with mem := Memory.write s.mem a v }

/-! ### Registers (R14, R20) -/

/-- `x[r]`: no register is hardwired (R20). -/
def State.reg (r : Reg) (s : State) : Word := s.regs[r.val]
/-- `x[r] <- v`. -/
def State.setReg (r : Reg) (v : Word) (s : State) : State := { s with regs := s.regs.set r.val v }
/-- `x[r] <- v` and then `setcc(x[r])`, the end of every flag-affecting instruction (R29). -/
def State.setRegCc (r : Reg) (v : Word) (s : State) : State := (s.setReg r v).setcc v
/-- `pc <- t`. -/
def State.setPc (t : Word) (s : State) : State := { s with pc := t }
/-- `x[7] <- pc`: the return address of JSR, JSRR and TRAP (R145). -/
def State.link (s : State) : State := s.setReg 7 s.pc

/-! ### The engine (R32, R81) -/

/-- A transition of ES. -/
def State.setEs (es : EngineState) (s : State) : State := { s with es := es }

/-- Fetch (R81): IR gets the word at pc, and pc is incremented before the body runs. -/
def State.fetch (s : State) : State := { s with ir := s.memRead s.pc, pc := s.pc + 1 }

/-- `halt` (R17): ES gets HALTED. -/
def State.halt (s : State) : State := s.setEs .halted

/-! ### Traps and faults (R224, R227, R228) -/

/-- Trap entry (R227): the one value saved is the return address, in R7; no mode, mask or stack changes and control goes
to no handler: the service runs inside the core. -/
def State.trapEntry (s : State) : State := s.link

/-- Trap return (R228): nothing is restored; the engine is ready to fetch at pc, and R7 keeps the return address. -/
def State.trapReturn (s : State) : State := s.setEs (.running .ready)

/-- The address of the TRAP whose service runs: pc - 1 (R221). -/
def State.trapAddress (s : State) : Word := s.pc - 1

/-- `raise f` (R17, R224): ES gets FAULTED(f); what was done before remains, no state is saved but the record, and no
handler runs. The shared operation of taking an exception. -/
def State.raise (f : Fault) (s : State) : State := s.setEs (.faulted f)

/-! ### Console output (R16, R37) -/

/-- Whether the port answers ok to the next `n` writes. -/
def OutPort.accepts (n : Nat) : OutPort → Bool
  | .accepting => true
  | .failingAfter m => decide (n ≤ m)

/-- How many of `n` writes the port answers with ok. -/
def OutPort.accepted (n : Nat) : OutPort → Nat
  | .accepting => n
  | .failingAfter m => min n m

/-- The port after `n` writes it answered with ok. -/
def OutPort.after (n : Nat) : OutPort → OutPort
  | .accepting => .accepting
  | .failingAfter m => .failingAfter (m - n)

/-- The bytes `bs` have been written and answered with ok. -/
def State.wrote (bs : List Byte) (s : State) : State :=
  { s with conOut := s.conOut.after bs.length, output := s.output ++ bs }

/-- `ConsoleWrite(b)` for each `b` of `bs` in order, by the service with vector `v`, and then `k`. When a write is
answered with io_error the service stops there: the bytes before it remain written and ConsoleIOError is raised (R182,
R222; log 6, 19). -/
def State.consoleWrite (v : Byte) (bs : List Byte) (k : State → State) (s : State) : State :=
  if s.conOut.accepts bs.length then k (s.wrote bs)
  else
    (s.wrote (bs.take (s.conOut.accepted bs.length))).raise (.consoleIOError .conOut v s.trapAddress)

/-! ### Console input (R16, R33, R38) -/

/-- The vector of a service that reads (R180). -/
def ReadService.vector : ReadService → Byte
  | .getc => 0x20
  | .inChar => 0x23

/-- The vector of a service that scans (R180). -/
def ScanService.vector : ScanService → Byte
  | .puts => 0x22
  | .putsp => 0x24

/-- The port's first answer has been taken. -/
def State.answered (s : State) : State := { s with conIn := s.conIn.tail }

/-- `let b = ConsoleRead()` and then `k b`: an answer is taken if the port has given one; io_error raises ConsoleIOError
with nothing after it done (R182); with no answer yet the engine is in WAIT_INPUT (R33). -/
def State.consoleRead (svc : ReadService) (k : Byte → State → State) (s : State) : State :=
  match s.conIn with
  | [] => s.setEs (.running (.waitInput svc))
  | .byte b :: _ => k b s.answered
  | .ioError :: _ => s.answered.raise (.consoleIOError .conIn svc.vector s.trapAddress)

end Sys2Proof.Machine
end

