-- ==== Sys2Proof/Machine/Operands.lean ====
section
/-! DEFINITION. The operand forms and address computations (spec 30_encoding.md R88, 42_load_store.md R175) and the byte
fields the console services use. -/

namespace Sys2Proof.Machine

/-- `sext_5` (R11). -/
def sext5 (f : BitVec 5) : Word := f.signExtend 16
/-- `sext_6` (R11). -/
def sext6 (f : BitVec 6) : Word := f.signExtend 16
/-- `sext_9` (R11). -/
def sext9 (f : BitVec 9) : Word := f.signExtend 16
/-- `sext_11` (R11). -/
def sext11 (f : BitVec 11) : Word := f.signExtend 16
/-- `zext_16` (R12; log 16). -/
def zext16 (b : Byte) : Word := b.zeroExtend 16

/-- Bits 7 to 0 of a word (R185, R188, R196). -/
def lowByte (w : Word) : Byte := w.extractLsb' 0 8
/-- Bits 15 to 8 of a word (R196). -/
def highByte (w : Word) : Byte := w.extractLsb' 8 8

/-- PC-relative, 9 bits (R175). `pc` is already the instruction's address + 1 (R24). -/
def State.pcRel9 (off : BitVec 9) (s : State) : Word := s.pc + sext9 off
/-- PC-relative, 11 bits (R175). -/
def State.pcRel11 (off : BitVec 11) (s : State) : Word := s.pc + sext11 off
/-- Base plus offset (R175); the base register is not modified. -/
def State.basePlus6 (baseR : Reg) (off : BitVec 6) (s : State) : Word := s.reg baseR + sext6 off
/-- Indirect (R175): the pointer word at the PC-relative address. -/
def State.indirect9 (off : BitVec 9) (s : State) : Word := s.memRead (s.pcRel9 off)

end Sys2Proof.Machine
end

