-- ==== Sys2Proof/Machine/Control.lean ====
section
/-! DEFINITION. Control transfer: BR, JMP, RET, JSR and JSRR (spec 41_control.md R130 to R145). -/

namespace Sys2Proof.Machine

/-- BR (R130). -/
def execBr (nzp : BitVec 3) (off : BitVec 9) (s : State) : Host.Outcome State Fault Refusal :=
  .next (if s.condSelected nzp then s.setPc (s.pcRel9 off) else s)

/-- JMP (R135). -/
def execJmp (baseR : Reg) (s : State) : Host.Outcome State Fault Refusal :=
  .next (s.setPc (s.reg baseR))

/-- RET (R136): JMP with base register R7. -/
def execRet (s : State) : Host.Outcome State Fault Refusal :=
  .next (s.setPc (s.reg 7))

/-- JSR (R140): the target is computed from the pc that is the return address. -/
def execJsr (off : BitVec 11) (s : State) : Host.Outcome State Fault Refusal :=
  .next (s.link.setPc (s.pcRel11 off))

/-- JSRR (R142): with JSRR_LINK_FIRST the base register is read after R7 is written, else before (log 13). -/
def execJsrr (baseR : Reg) (s : State) : Host.Outcome State Fault Refusal :=
  .next (s.link.setPc (if s.cfg.jsrrLinkFirst then s.link.reg baseR else s.reg baseR))

end Sys2Proof.Machine
end

