-- ==== Sys2Proof/Machine/HaltOpcodes.lean ====
section
/-! DEFINITION. The reserved opcodes RTI and RES (spec 44_halt_opcodes.md R210, R212). -/

namespace Sys2Proof.Machine

/-- RTI (R210): it halts, and does nothing else; it returns from nothing (C6). -/
def execRti (s : State) : Host.Outcome State Fault Refusal := .next s.halt

/-- RES (R212): it halts, and does nothing else. -/
def execRes (s : State) : Host.Outcome State Fault Refusal := .next s.halt

end Sys2Proof.Machine
end

