-- ==== Sys2Proof/Machine/LoadStore.lean ====
section
/-! DEFINITION. Loads, stores and LEA (spec 42_load_store.md R150 to R175). -/

namespace Sys2Proof.Machine

/-- LD (R150). -/
def execLd (dr : Reg) (off : BitVec 9) (s : State) : Host.Outcome State Fault Refusal :=
  .next (s.setRegCc dr (s.memRead (s.pcRel9 off)))

/-- LDI (R154): the pointer is read, then the data. -/
def execLdi (dr : Reg) (off : BitVec 9) (s : State) : Host.Outcome State Fault Refusal :=
  .next (s.setRegCc dr (s.memRead (s.indirect9 off)))

/-- LDR (R158). -/
def execLdr (dr baseR : Reg) (off : BitVec 6) (s : State) : Host.Outcome State Fault Refusal :=
  .next (s.setRegCc dr (s.memRead (s.basePlus6 baseR off)))

/-- LEA (R162): no memory access, and it sets the flags (C4). -/
def execLea (dr : Reg) (off : BitVec 9) (s : State) : Host.Outcome State Fault Refusal :=
  .next (s.setRegCc dr (s.pcRel9 off))

/-- ST (R165). -/
def execSt (sr : Reg) (off : BitVec 9) (s : State) : Host.Outcome State Fault Refusal :=
  .next (s.memWrite (s.pcRel9 off) (s.reg sr))

/-- STI (R168): the pointer is read before the write. -/
def execSti (sr : Reg) (off : BitVec 9) (s : State) : Host.Outcome State Fault Refusal :=
  .next (s.memWrite (s.indirect9 off) (s.reg sr))

/-- STR (R172). -/
def execStr (sr baseR : Reg) (off : BitVec 6) (s : State) : Host.Outcome State Fault Refusal :=
  .next (s.memWrite (s.basePlus6 baseR off) (s.reg sr))

end Sys2Proof.Machine
end

