-- ==== Sys2Proof/Machine/Operate.lean ====
section
/-! DEFINITION. The operate instructions ADD, AND and NOT (spec 40_operate.md R110 to R125). -/

namespace Sys2Proof.Machine

/-- ADD, register mode (R110). -/
def execAddReg (dr sr1 sr2 : Reg) (s : State) : Host.Outcome State Fault Refusal :=
  .next (s.setRegCc dr (s.reg sr1 + s.reg sr2))

/-- ADD, immediate mode (R111). -/
def execAddImm (dr sr1 : Reg) (imm5 : BitVec 5) (s : State) : Host.Outcome State Fault Refusal :=
  .next (s.setRegCc dr (s.reg sr1 + sext5 imm5))

/-- AND, register mode (R115). -/
def execAndReg (dr sr1 sr2 : Reg) (s : State) : Host.Outcome State Fault Refusal :=
  .next (s.setRegCc dr (s.reg sr1 &&& s.reg sr2))

/-- AND, immediate mode (R116). -/
def execAndImm (dr sr1 : Reg) (imm5 : BitVec 5) (s : State) : Host.Outcome State Fault Refusal :=
  .next (s.setRegCc dr (s.reg sr1 &&& sext5 imm5))

/-- NOT (R120). -/
def execNot (dr sr1 : Reg) (s : State) : Host.Outcome State Fault Refusal :=
  .next (s.setRegCc dr (~~~ s.reg sr1))

end Sys2Proof.Machine
end

