-- ==== Sys2Proof/Machine/Trap.lean ====
section
/-! DEFINITION. TRAP and the six console services (spec 43_trap_services.md R180 to R199). A service below is its body,
after `x[7] <- pc`; the same body goes on when an answer of the console arrives in WAIT_INPUT (R33). -/

namespace Sys2Proof.Machine

/-! ### The bodies of the services -/

/-- GETC (R183): one read, no echo; R0 gets the zero-extended byte, with its flag. -/
def getcBody (s : State) : State :=
  s.consoleRead .getc fun b t => t.setRegCc 0 (zext16 b)

/-- OUT (R185). -/
def outBody (s : State) : State :=
  s.consoleWrite 0x21 [lowByte (s.reg 0)] id

/-- IN after its prompt (R193): one read, the echo, and only then R0 and its flag (log 14). -/
def inCharRead (s : State) : State :=
  s.consoleRead .inChar fun b t => t.consoleWrite 0x23 [b] (State.setRegCc 0 (zext16 b))

/-- IN (R193). -/
def inCharBody (s : State) : State :=
  s.consoleWrite 0x23 s.cfg.inPrompt inCharRead

/-- The bytes a scan of `n` words of `m` from address `a` on writes, and whether it met a zero word, at which it stops
(R188, R196). Addresses wrap (R51). -/
def scanWords (bytesOf : Word → List Byte) (m : Memory) : Nat → Word → List Byte × Bool
  | 0, _ => ([], false)
  | n + 1, a =>
    let w := Memory.read m a
    if w = 0 then ([], true)
    else
      let rest := scanWords bytesOf m n (a + 1)
      (bytesOf w ++ rest.1, rest.2)

/-- What PUTS writes for a word: bits 7 to 0 (R188; log 15). -/
def putsBytes (w : Word) : List Byte := [lowByte w]

/-- What PUTSP writes for a word: the low byte always, then the high byte if it is not zero (R196; log 15). -/
def putspBytes (w : Word) : List Byte :=
  if highByte w = 0 then [lowByte w] else [lowByte w, highByte w]

/-- One pass of a scan from x[0] over all 65536 words. Memory does not change during it (R181), so when no word is zero
the scan is back where it began and goes on for ever (R188, I5; log 8). -/
def scanBody (svc : ScanService) (bytesOf : Word → List Byte) (s : State) : State :=
  let found := scanWords bytesOf s.mem 65536 (s.reg 0)
  s.consoleWrite svc.vector found.1 fun t => if found.2 then t else t.setEs (.running (.scanning svc))

/-- PUTS (R188). -/
def putsBody (s : State) : State := scanBody .puts putsBytes s

/-- PUTSP (R196). -/
def putspBody (s : State) : State := scanBody .putsp putspBytes s

/-- HALT (R198): the banner, then HALTED. -/
def haltBody (s : State) : State :=
  s.consoleWrite 0x25 s.cfg.haltBanner State.halt

/-- The dispatch of TRAP on its vector (R180); any other vector raises InvalidTrapVector (R199). -/
def trapDispatch (v : Byte) (s : State) : State :=
  if v = 0x20 then getcBody s
  else if v = 0x21 then outBody s
  else if v = 0x22 then putsBody s
  else if v = 0x23 then inCharBody s
  else if v = 0x24 then putspBody s
  else if v = 0x25 then haltBody s
  else s.raise (.invalidTrapVector v s.trapAddress)

/-! ### The instructions -/

/-- TRAP 0x20 (R183). -/
def execGetc (s : State) : Host.Outcome State Fault Refusal := .next (getcBody s.trapEntry)

/-- TRAP 0x21 (R185). -/
def execOut (s : State) : Host.Outcome State Fault Refusal := .next (outBody s.trapEntry)

/-- TRAP 0x22 (R188). -/
def execPuts (s : State) : Host.Outcome State Fault Refusal := .next (putsBody s.trapEntry)

/-- TRAP 0x23 (R193). -/
def execInChar (s : State) : Host.Outcome State Fault Refusal := .next (inCharBody s.trapEntry)

/-- TRAP 0x24 (R196). -/
def execPutsp (s : State) : Host.Outcome State Fault Refusal := .next (putspBody s.trapEntry)

/-- TRAP 0x25 (R198). -/
def execHalt (s : State) : Host.Outcome State Fault Refusal := .next (haltBody s.trapEntry)

/-- TRAP with any vector (R180): R7 is written before the vector is examined. -/
def execTrap (v : Byte) (s : State) : Host.Outcome State Fault Refusal := .next (trapDispatch v s.trapEntry)

/-! ### Going on with a service that has not completed -/

/-- A service in WAIT_INPUT, seen again: it completes if the port has answered, and waits on if not (R33). -/
def resumeRead (svc : ReadService) (s : State) : State :=
  match svc with
  | .getc => getcBody s.trapReturn
  | .inChar => inCharRead s.trapReturn

/-- The next pass of an endless scan (I5). -/
def resumeScan (svc : ScanService) (s : State) : State :=
  match svc with
  | .puts => putsBody s.trapReturn
  | .putsp => putspBody s.trapReturn

end Sys2Proof.Machine
end

