-- ==== Sys2Proof/Machine/Ports.lean ====
section
/-! DEFINITION. The host's side of the block: creation reset, LOAD, START, the console's answers, STATUS and INSPECT
(spec 10_state.md R37 to R42, 60_exceptions.md R220, 70_reset_and_hazards.md R250 to R259), as functions on State. `step`
calls none of them: they are what the host may do between steps (R259; log 2). -/

namespace Sys2Proof.Machine

/-! ### Creation reset -/

/-- Creation reset of a machine in any state (R250, R251): every item of the CORE gets its creation value. The
parameters and what the console will answer, which are not the CORE's state, stay (log 25); the host may settle the
answers anew (`answerInput`, `answerOutput`). -/
def State.creationReset (s : State) : State :=
  { State.reset with cfg := s.cfg, conIn := s.conIn, conOut := s.conOut }

/-! ### LOAD (R40, R252 to R255) -/

/-- The big-endian words of a byte stream, and whether one byte is left over (R252). -/
def streamWords : List Byte → List Word × Bool
  | [] => ([], false)
  | [_] => ([], true)
  | hi :: lo :: rest => ((hi ++ lo : BitVec 16) :: (streamWords rest).1, (streamWords rest).2)

/-- The origin and the data words of an image; none for a stream that is not well-formed: an odd number of bytes, or no
word at all (R252, R253). -/
def parseImage (bytes : List Byte) : Option (Word × List Word) :=
  match streamWords bytes with
  | (origin :: words, false) => some (origin, words)
  | _ => none

/-- The writes of R254: word i goes to address a + i modulo 65536, in order. -/
def Memory.writeWords (m : Memory) (a : Word) : List Word → Memory
  | [] => m
  | w :: ws => Memory.writeWords (Memory.write m a w) (a + 1) ws

/-- As `writeWords`, but only the words at the positions `landed` holds of are written. -/
def Memory.writeSomeWords (landed : Nat → Bool) (m : Memory) (a : Word) : Nat → List Word → Memory
  | _, [] => m
  | i, w :: ws =>
    Memory.writeSomeWords landed (if landed i then Memory.write m a w else m) (a + 1) (i + 1) ws

/-- `load_image(origin, words)` (R40, R254): ignored outside CREATED (I15). -/
def State.loadImage (origin : Word) (words : List Word) (s : State) : State :=
  if s.es = .created then { s with mem := Memory.writeWords s.mem origin words } else s

/-- Where an image comes from (R255): a byte stream that can be read to its end, or a source that fails after some
bytes. -/
inductive ImageSource where
  | stream (bytes : List Byte)
  | unreadable (bytesBefore : List Byte)
  deriving DecidableEq, Repr

/-- The bytes a source delivers. -/
def ImageSource.bytes : ImageSource → List Byte
  | .stream bytes => bytes
  | .unreadable bytes => bytes

/-- What the LOAD port answers. -/
inductive LoadAnswer where
  | ok
  | loadError
  /-- The transaction came outside CREATED and is ignored (R40). -/
  | ignored
  deriving DecidableEq, Repr

/-- Memory after a failed load: any of the image's words may have been written; `landed` says which (R255, I8; log 21). -/
def State.failedLoad (bytes : List Byte) (landed : Nat → Bool) (s : State) : State :=
  match (streamWords bytes).1 with
  | [] => s
  | origin :: words => { s with mem := Memory.writeSomeWords landed s.mem origin 0 words }

/-- Loading one image (R252 to R255). `landed` is open: which words of a failed image stay (I8). -/
def State.load (src : ImageSource) (landed : Nat → Bool) (s : State) : State × LoadAnswer :=
  if s.es = .created then
    match src with
    | .stream bytes =>
      match parseImage bytes with
      | some (origin, words) => (s.loadImage origin words, .ok)
      | none => (s.failedLoad bytes landed, .loadError)
    | .unreadable bytes => (s.failedLoad bytes landed, .loadError)
  else (s, .ignored)

/-! ### START (R39, R256) -/

/-- The START event (R256): COND gets ZRO, PC gets the entry address 0x3000, ES gets RUNNING; accepted only in CREATED,
else ignored (R39, I16). -/
def State.start (s : State) : State :=
  if s.es = .created then { s with cond := condZro, pc := 0x3000, es := .running .ready } else s

/-- The host's boot (R255, R257, R259): the images in the order given, then START; after a load failure no further load
and no START. -/
def State.boot : List (ImageSource × (Nat → Bool)) → State → State
  | [], s => s.start
  | (src, landed) :: rest, s =>
    match s.load src landed with
    | (t, .ok) => State.boot rest t
    | (t, _) => t

/-! ### The console's side (R37, R38) -/

/-- The input port gives further answers, in order (R38). -/
def State.answerInput (answers : List InAnswer) (s : State) : State := { s with conIn := s.conIn ++ answers }

/-- The output port will answer the coming writes as `answer` says (R37, R259: the host may answer ok or io_error); the
host may settle this, and settle it anew, at any time between steps, so ok can return for the next machine after a
failure (log 5). -/
def State.answerOutput (answer : OutPort) (s : State) : State := { s with conOut := answer }

/-! ### STATUS and INSPECT (R41, R42, R220) -/

/-- The code of a fault (R220; log 26). -/
def Fault.code : Fault → Nat
  | .invalidTrapVector _ _ => 1
  | .consoleIOError _ _ _ => 2

/-- What the STATUS port presents: ES, and the fault and its record (R41). WAIT_INPUT is not part of it. -/
inductive Status where
  | created
  | running
  | halted
  | faulted (code : Nat) (record : Fault)
  deriving DecidableEq, Repr

/-- The STATUS port (R41). -/
def State.status (s : State) : Status :=
  match s.es with
  | .created => .created
  | .running _ => .running
  | .halted => .halted
  | .faulted f => .faulted f.code f

/-- The run has ended (R260). -/
def State.ended (s : State) : Bool :=
  match s.es with
  | .created => false
  | .running _ => false
  | .halted => true
  | .faulted _ => true

/-- INSPECT of a register (R42): only after the end (I17). -/
def State.inspectReg (r : Reg) (s : State) : Option Word := if s.ended then some (s.reg r) else none
/-- INSPECT of the PC. -/
def State.inspectPc (s : State) : Option Word := if s.ended then some s.pc else none
/-- INSPECT of COND. -/
def State.inspectCond (s : State) : Option (BitVec 3) := if s.ended then some s.cond else none
/-- INSPECT of a memory word. -/
def State.inspectMem (a : Word) (s : State) : Option Word := if s.ended then some (s.memRead a) else none

end Sys2Proof.Machine
end

