-- ==== Sys2Proof/Machine/Step.lean ====
section
/-! DEFINITION. One step of the engine (spec 30_encoding.md R81, R82) and how an instruction is put in its way. -/

namespace Sys2Proof.Machine

/-- One step (R81): fetch, increment, decode, execute, while ES = RUNNING and ready to fetch. Inside a TRAP that has not
completed the step goes on with it (R33, I5). Before START and after the end nothing happens (R82, R235; log 2, 3). -/
def step (s : State) : Host.Outcome State Fault Refusal :=
  match s.es with
  | .running .ready => exec (decode s.fetch.ir) s.fetch
  | .running (.waitInput svc) => .next (resumeRead svc s)
  | .running (.scanning svc) => .next (resumeScan svc s)
  | .created => .next s
  | .halted => .next s
  | .faulted _ => .next s

/-- `s` with the instruction word `w` at the address the next step fetches from. A machine that is not ready to fetch is
made so: one in CREATED by the START event (R256), another by setting ES (log 2). -/
def State.withFetchWord (s : State) (nbits w : Nat) : State :=
  let ready := if s.es = .created then s.start else s.trapReturn
  ready.memWrite ready.pc (BitVec.ofNat 16 (w % 2 ^ nbits))

end Sys2Proof.Machine
end

