-- ==== Sys2Proof/Safety.lean ====
section
/-! DEFINITION. The terms the statements use: what an update leaves alone, what a flag says of a value, which registers
and flags an instruction may write, and the invariant of every state a run can reach. -/

namespace Sys2Proof.Safety

open Sys2Proof.Machine

/-! ### What is left alone -/

/-- No general register changes. -/
def SameRegs (s t : State) : Prop := ∀ q, t.reg q = s.reg q

/-- No general register but `r` changes. -/
def SameRegsBut (r : Reg) (s t : State) : Prop := ∀ q, q ≠ r → t.reg q = s.reg q

/-- Every word of memory reads as before. -/
def SameMemory (s t : State) : Prop := ∀ a, t.memRead a = s.memRead a

/-- Every word of memory but the one at `a` reads as before. -/
def SameMemoryBut (a : Word) (s t : State) : Prop := ∀ b, b ≠ a → t.memRead b = s.memRead b

/-- The console has seen and given nothing: no byte is written, no answer taken. -/
structure SameConsole (s t : State) : Prop where
  conIn : t.conIn = s.conIn
  conOut : t.conOut = s.conOut
  output : t.output = s.output

/-- The engine state, the instruction register and the parameters are as before. -/
structure SameEngine (s t : State) : Prop where
  es : t.es = s.es
  ir : t.ir = s.ir
  cfg : t.cfg = s.cfg

/-! ### Flags -/

/-- `c` is the flag of `v` (R28): ZRO for 0x0000, NEG when bit 15 is set, POS otherwise. -/
structure FlagIs (v : Word) (c : BitVec 3) : Prop where
  zro : v = 0 → c = condZro
  neg : v.getLsbD 15 = true → c = condNeg
  pos : v ≠ 0 → v.getLsbD 15 = false → c = condPos

/-- Exactly one flag is set (R27). -/
def OneFlag (c : BitVec 3) : Prop := c = condPos ∨ c = condZro ∨ c = condNeg

/-! ### Bytes of a word -/

/-- The bytes of a word of packed characters (R196): the low byte, and then the high byte if it is not zero. -/
def packedBytes (w : Word) : List Byte :=
  if w.toNat < 256 then [BitVec.ofNat 8 w.toNat]
  else [BitVec.ofNat 8 w.toNat, BitVec.ofNat 8 (w.toNat / 256)]

/-- The bytes a scan writes for a word: PUTS its low byte (R188), PUTSP its packed bytes (R196). -/
def scannedBytes : ScanService → Word → List Byte
  | .puts, w => [BitVec.ofNat 8 w.toNat]
  | .putsp, w => packedBytes w

/-- The bytes one pass of a scan writes over all 65536 words, from R0 on, addresses wrapping. -/
def passBytes (svc : ScanService) (s : State) : List Byte :=
  (List.range 65536).flatMap fun k => scannedBytes svc (s.memRead (s.reg 0 + BitVec.ofNat 16 k))

/-! ### The shapes of an instruction's effect -/

/-- `x[dr] <- v` and `setcc(x[dr])`, and nothing else: the effect of every flag-affecting instruction (R29). -/
structure WritesRegCc (dr : Reg) (v : Word) (s t : State) : Prop where
  result : t.reg dr = v
  flag : FlagIs v t.cond
  regs : SameRegsBut dr s t
  pc : t.pc = s.pc
  mem : SameMemory s t
  console : SameConsole s t
  engine : SameEngine s t

/-- `MemWrite(a, 1, v)` and nothing else: the effect of every store. -/
structure Stores (a v : Word) (s t : State) : Prop where
  stored : t.memRead a = v
  mem : SameMemoryBut a s t
  regs : SameRegs s t
  cond : t.cond = s.cond
  pc : t.pc = s.pc
  console : SameConsole s t
  engine : SameEngine s t

/-- `pc <- target` and nothing else. -/
structure Jumps (target : Word) (s t : State) : Prop where
  pc : t.pc = target
  regs : SameRegs s t
  cond : t.cond = s.cond
  mem : SameMemory s t
  console : SameConsole s t
  engine : SameEngine s t

/-- `x[7] <- pc`, `pc <- target` and nothing else. -/
structure Calls (target : Word) (s t : State) : Prop where
  pc : t.pc = target
  link : t.reg 7 = s.pc
  regs : SameRegsBut 7 s t
  cond : t.cond = s.cond
  mem : SameMemory s t
  console : SameConsole s t
  engine : SameEngine s t

/-- What every TRAP but a completed GETC or IN leaves (R21, R26, R29, R181): R7 holds the return address; the other
registers, COND, pc, memory, the instruction register and the parameters are as before. -/
structure LinksOnly (s t : State) : Prop where
  link : t.reg 7 = s.pc
  regs : SameRegsBut 7 s t
  cond : t.cond = s.cond
  pc : t.pc = s.pc
  mem : SameMemory s t
  ir : t.ir = s.ir
  cfg : t.cfg = s.cfg

/-- `x[7] <- pc`, then `x[0] <- v` with its flag: the effect of a completed GETC or IN on the CORE (R183, R193). -/
structure ReadsChar (v : Word) (s t : State) : Prop where
  result : t.reg 0 = v
  flag : FlagIs v t.cond
  link : t.reg 7 = s.pc
  regs : ∀ q, q ≠ 0 → q ≠ 7 → t.reg q = s.reg q
  pc : t.pc = s.pc
  mem : SameMemory s t
  engine : SameEngine s t

/-! ### Which instruction may do what -/

/-- The vector of a TRAP, by its own row or the generic one (R180). -/
def trapVector : Instr → Option Byte
  | .getc => some 0x20
  | .out => some 0x21
  | .puts => some 0x22
  | .inChar => some 0x23
  | .putsp => some 0x24
  | .halt => some 0x25
  | .trap v => some v
  | _ => none

/-- The general registers an instruction may write (R21). -/
def writtenRegs (i : Instr) : List Reg :=
  match i with
  | .addReg dr _ _ => [dr]
  | .addImm dr _ _ => [dr]
  | .andReg dr _ _ => [dr]
  | .andImm dr _ _ => [dr]
  | .not dr _ => [dr]
  | .ld dr _ => [dr]
  | .ldi dr _ => [dr]
  | .ldr dr _ _ => [dr]
  | .lea dr _ => [dr]
  | .jsr _ => [7]
  | .jsrr _ => [7]
  | .getc => [7, 0]
  | .inChar => [7, 0]
  | .trap v => if v = 0x20 ∨ v = 0x23 then [7, 0] else [7]
  | .out => [7]
  | .puts => [7]
  | .putsp => [7]
  | .halt => [7]
  | _ => []

/-- The register an instruction ends with `setcc` of, when it completes (R29). -/
def flagReg (i : Instr) : Option Reg :=
  match i with
  | .addReg dr _ _ => some dr
  | .addImm dr _ _ => some dr
  | .andReg dr _ _ => some dr
  | .andImm dr _ _ => some dr
  | .not dr _ => some dr
  | .ld dr _ => some dr
  | .ldi dr _ => some dr
  | .ldr dr _ _ => some dr
  | .lea dr _ => some dr
  | .getc => some 0
  | .inChar => some 0
  | .trap v => if v = 0x20 ∨ v = 0x23 then some 0 else none
  | _ => none

/-- The control transfers, the only instructions that write pc beyond the fetch (R26). -/
def transfersControl (i : Instr) : Bool :=
  match i with
  | .br _ _ => true
  | .jmp _ => true
  | .ret => true
  | .jsr _ => true
  | .jsrr _ => true
  | _ => false

/-- The instructions that write memory (R34). -/
def storesWord (i : Instr) : Bool :=
  match i with
  | .st _ _ => true
  | .sti _ _ => true
  | .str _ _ _ => true
  | _ => false

/-- The instructions that stop the engine (R214). -/
def stopsEngine (i : Instr) : Bool :=
  match i with
  | .rti => true
  | .res => true
  | .halt => true
  | .trap v => v == 0x25
  | _ => false

/-- The instruction whose read waits (R33). -/
def readInstr : ReadService → Instr
  | .getc => .getc
  | .inChar => .inChar

/-- The instruction whose scan goes on (I5). -/
def scanInstr : ScanService → Instr
  | .puts => .puts
  | .putsp => .putsp

/-! ### The invariant -/

/-- The fault record tells what happened (R221, R222): the TRAP in the instruction register, at the address before pc,
raised it; an invalid vector is none of the six; a console fault names a service that uses the port. -/
def RecordFits (f : Fault) (s : State) : Prop :=
  match f with
  | .invalidTrapVector v a => decode s.ir = .trap v ∧ recognisedVector v = false ∧ a + 1 = s.pc
  | .consoleIOError port v a =>
    decode s.ir = decodeTrap v ∧ recognisedVector v = true ∧ a + 1 = s.pc ∧
      (port = .conIn → v = 0x20 ∨ v = 0x23) ∧ (port = .conOut → v ≠ 0x20)

/-- What holds of every state: of the state after creation, after what the host may do, and after every step. -/
structure Inv (s : State) : Prop where
  /-- Memory is in its canonical form. -/
  memory : Memory.wf s.mem = true
  /-- Before the run the CORE's registers have their creation values and nothing is written (R23, R26, R31). -/
  created : s.es = .created → SameRegs State.reset s ∧ s.pc = 0 ∧ s.cond = 0 ∧ s.output = []
  /-- From run start on exactly one flag is set (R27, R31). -/
  oneFlag : s.es ≠ .created → OneFlag s.cond
  /-- WAIT_INPUT is inside a GETC or IN, whose link is in R7 (R33, R180). -/
  waiting : ∀ svc, s.es = .running (.waitInput svc) → decode s.ir = readInstr svc ∧ s.reg 7 = s.pc
  /-- An endless scan is inside a PUTS or PUTSP, and no word of memory is zero (I5). -/
  scanning : ∀ svc, s.es = .running (.scanning svc) →
    decode s.ir = scanInstr svc ∧ s.reg 7 = s.pc ∧ ∀ a, s.memRead a ≠ 0
  /-- Only HALT, RTI and RES halt the engine (R214). -/
  halted : s.es = .halted → stopsEngine (decode s.ir) = true
  /-- The record of a fault fits, and R7 is the return address (R199, R221, R222). -/
  faulted : ∀ f, s.es = .faulted f → RecordFits f s ∧ s.reg 7 = s.pc

end Sys2Proof.Safety
end

