-- ==== Sys2Proof/Certificates/Slice0/Obligations.lean ====
section
/-! DEFINITION. The statements about the model, from the rules of spec/, for the provers. -/

open Sys2Proof Sys2Proof.Machine Sys2Proof.Safety

/-! ### Creation, loading, start, end -/

/-- R250 (decision D22): creation reset gives every item its creation value, from whatever state, and nothing else leads
out of HALTED or FAULTED. That a step in an ended state answers the same state is the model's choice (log 3); that START
and LOAD are ignored there rests on decisions D19 and D18 (log 28). -/
def Obligations.CreationResetValues : Prop :=
  (∀ s : State, (∀ r, s.creationReset.reg r = 0) ∧ s.creationReset.pc = 0 ∧ s.creationReset.cond = 0 ∧
    (∀ a, s.creationReset.memRead a = 0) ∧ s.creationReset.es = .created) ∧
  ((∀ r, State.reset.reg r = 0) ∧ State.reset.pc = 0 ∧ State.reset.cond = 0 ∧
    (∀ a, State.reset.memRead a = 0) ∧ State.reset.es = .created) ∧
  ∀ s : State, s.ended = true → step s = .next s ∧ s.start = s ∧
    (∀ src landed, (s.load src landed).1 = s) ∧ (∀ answers, (s.answerInput answers).es = s.es) ∧
    ∀ p, (s.answerOutput p).es = s.es

/-- R256: START in CREATED sets COND, pc and ES and changes nothing else, so the entry is 0x3000 whatever was loaded;
in any other state it is ignored (R39; decision D19, log 28). -/
def Obligations.StartBeginsTheRun : Prop :=
  ∀ s : State,
    (s.es = .created →
      s.start.cond = condZro ∧ s.start.pc = 0x3000 ∧ s.start.es = .running .ready ∧
      SameRegs s s.start ∧ SameMemory s s.start ∧ SameConsole s s.start ∧ s.start.ir = s.ir ∧ s.start.cfg = s.cfg) ∧
    (s.es ≠ .created → s.start = s)

/-- R254: after `load_image` in CREATED an address holds the last word written to it (word i goes to origin + i modulo
65536, later words over earlier ones), every other address is as before, and no register is written. The premise is the model's invariant
that memory is in canonical form (log 1). -/
def Obligations.LoadImageWritesInOrder : Prop :=
  ∀ (s : State) (origin : Word) (words : List Word) (a : Word),
    Memory.wf s.mem = true → s.es = .created →
    (∀ (k : Nat) (w : Word), words[k]? = some w → origin + BitVec.ofNat 16 k = a →
      (∀ j, k < j → j < words.length → origin + BitVec.ofNat 16 j ≠ a) →
      (s.loadImage origin words).memRead a = w) ∧
    ((∀ j, j < words.length → origin + BitVec.ofNat 16 j ≠ a) →
      (s.loadImage origin words).memRead a = s.memRead a) ∧
    SameRegs s (s.loadImage origin words) ∧ (s.loadImage origin words).pc = s.pc ∧
    (s.loadImage origin words).cond = s.cond ∧ (s.loadImage origin words).es = s.es

/-- R252, R253, R255 with the spec's decision D18 for an odd number of bytes (log 21): the big-endian stream of an origin
and its data words is that image; an odd number of bytes, and no byte at all, is a load failure; a source that cannot be
read is one whatever bytes it gave before. After a load failure ES stays CREATED. -/
def Obligations.ImageStreamIsBigEndian : Prop :=
  (∀ (origin : Word) (words : List Word),
    parseImage ((origin :: words).flatMap fun w => [highByte w, lowByte w]) = some (origin, words)) ∧
  (∀ bytes : List Byte, bytes.length % 2 = 1 → parseImage bytes = none) ∧
  parseImage [] = none ∧
  ∀ (s : State) (bytes : List Byte) (landed : Nat → Bool), s.es = .created →
    (parseImage bytes = none →
      (s.load (.stream bytes) landed).2 = .loadError ∧ (s.load (.stream bytes) landed).1.es = .created) ∧
    (s.load (.unreadable bytes) landed).2 = .loadError ∧ (s.load (.unreadable bytes) landed).1.es = .created

/-- R255, R257: the host's boot loads the images in the order given, each over the ones before it, and starts the run;
when one fails to load, no run starts (decision D18, log 21). -/
def Obligations.BootLoadsInOrderThenStarts : Prop :=
  ∀ (images : List (List Byte × Word × List Word)) (landed : Nat → Bool) (s : State), s.es = .created →
    (∀ im ∈ images, parseImage im.1 = some im.2) →
    State.boot (images.map fun im => (.stream im.1, landed)) s =
      State.start { s with mem := images.foldl (fun m im => Memory.writeWords m im.2.1 im.2.2) s.mem } ∧
    ∀ (bad : ImageSource) (rest : List (ImageSource × (Nat → Bool))),
      (∀ bytes, bad = .stream bytes → parseImage bytes = none) →
      (State.boot ((images.map fun im => (.stream im.1, landed)) ++ (bad, landed) :: rest) s).es = .created

/-- R40 (decision D18): a LOAD transaction outside CREATED is ignored; R41, R42, R220 (decisions D19, D24): STATUS
presents ES and, in FAULTED, the fault with its code 1 or 2 and its record; INSPECT gives the values the run left in
HALTED and FAULTED and nothing before (log 26, 28). -/
def Obligations.PortsFollowTheEngineState : Prop :=
  ∀ s : State,
    (s.es ≠ .created → ∀ src landed, s.load src landed = (s, .ignored)) ∧
    (s.es = .created → s.status = .created) ∧ (∀ act, s.es = .running act → s.status = .running) ∧
    (s.es = .halted → s.status = .halted) ∧
    (∀ v a, s.es = .faulted (.invalidTrapVector v a) → s.status = .faulted 1 (.invalidTrapVector v a)) ∧
    (∀ p v a, s.es = .faulted (.consoleIOError p v a) → s.status = .faulted 2 (.consoleIOError p v a)) ∧
    (s.es = .halted ∨ (∃ f, s.es = .faulted f) →
      (∀ r, s.inspectReg r = some (s.reg r)) ∧ s.inspectPc = some s.pc ∧ s.inspectCond = some s.cond ∧
      ∀ a, s.inspectMem a = some (s.memRead a)) ∧
    (s.es = .created ∨ (∃ act, s.es = .running act) →
      (∀ r, s.inspectReg r = none) ∧ s.inspectPc = none ∧ s.inspectCond = none ∧ ∀ a, s.inspectMem a = none)

/-! ### Decoding and encoding -/

/-- Decode and encode agree: for every well-formed instruction, with every operand at every value, decoding its word
gives it back. The opcode values of the words are PRESUMED (log 9), the field positions DEDUCED (log 10). -/
def Obligations.DecodeEncodeRoundTrip : Prop :=
  ∀ i : Instr, i.wellFormed = true → decode (encode i) = i

/-- Every word decodes to a well-formed instruction, whose own word agrees with it on every bit some field uses. The
opcode values are PRESUMED (log 9), the field positions DEDUCED (log 10), and the other bits ignored by decision D5
(log 12). -/
def Obligations.EncodeKeepsTheUsedBits : Prop :=
  ∀ w : Word, (decode w).wellFormed = true ∧
    encode (decode w) &&& (decode w).usedBits = w &&& (decode w).usedBits

/-- R90 (decision D5, log 12): words that differ only in bits no field uses decode alike. -/
def Obligations.UnusedBitsAreIgnored : Prop :=
  ∀ w w' : Word, w &&& (decode w).usedBits = w' &&& (decode w).usedBits → decode w' = decode w

/-- R96: every word matches its instruction's row of the opcode table; another row it matches is the JMP row of a RET
word or the generic TRAP row of a service's word. The rows' opcode values are PRESUMED (log 9). -/
def Obligations.DecodeNamesTheMostSpecificRow : Prop :=
  ∀ w : Word, w &&& (decode w).rowMask = (decode w).rowMatch ∧
    ∀ i : Instr, w &&& i.rowMask = i.rowMatch →
      (i.rowMask = (decode w).rowMask ∧ i.rowMatch = (decode w).rowMatch) ∨
      (decode w = .ret ∧ ∃ b, i = .jmp b) ∨
      (∃ v u, trapVector (decode w) = some v ∧ recognisedVector v = true ∧ i = .trap u)

/-- R96: the two rows of a word have one meaning: JMP with R7 is RET, and the generic TRAP with a recognised vector is
that service. That the general constructors have a meaning on these operands too is the model's choice (log 23). -/
def Obligations.BothRowsMeanTheSame : Prop :=
  ∀ s : State, exec (.jmp 7) s = exec .ret s ∧
    exec (.trap 0x20) s = exec .getc s ∧ exec (.trap 0x21) s = exec .out s ∧
    exec (.trap 0x22) s = exec .puts s ∧ exec (.trap 0x23) s = exec .inChar s ∧
    exec (.trap 0x24) s = exec .putsp s ∧ exec (.trap 0x25) s = exec .halt s

/-- Words of spec 95_test_vectors.md, one or more of every family, with the instruction each stands for. They rest on the
PRESUMED opcode values (log 9) and order of n, z and p (log 11, D4), and those with other than canonical unused bits on
decision D5 (log 12). -/
def Obligations.WordsOfTheSpecDecode : Prop :=
  decode 0x1042 = .addReg 0 1 2 ∧ decode 0x102F = .addImm 0 0 15 ∧ decode 0x5642 = .andReg 3 1 2 ∧
  decode 0x96BF = .not 3 2 ∧ decode 0x03FD = .br 0b001 0x1FD ∧ decode 0xC180 = .jmp 6 ∧ decode 0xC1C0 = .ret ∧
  decode 0x4BFF = .jsr 0x3FF ∧ decode 0x4080 = .jsrr 2 ∧ decode 0xA804 = .ldi 4 4 ∧ decode 0x6060 = .ldr 0 1 0x20 ∧
  decode 0x7641 = .str 3 1 1 ∧ decode 0xE0FF = .lea 0 0xFF ∧ decode 0xFF25 = .halt ∧ decode 0xF099 = .trap 0x99 ∧
  decode 0x8FFF = .rti ∧ decode 0xDFFF = .res ∧ decode 0x0000 = .br 0 0

/-- R11: a field is extended by a copy of its top bit in every higher bit, and keeps its two's-complement value. -/
def Obligations.FieldsAreSignExtended : Prop :=
  (∀ f : BitVec 5, (f.getLsbD 4 = false → sext5 f = f.zeroExtend 16) ∧
    (f.getLsbD 4 = true → sext5 f = f.zeroExtend 16 ||| (0xFFFF#16 <<< 5)) ∧ (sext5 f).toInt = f.toInt) ∧
  (∀ f : BitVec 6, (f.getLsbD 5 = false → sext6 f = f.zeroExtend 16) ∧
    (f.getLsbD 5 = true → sext6 f = f.zeroExtend 16 ||| (0xFFFF#16 <<< 6)) ∧ (sext6 f).toInt = f.toInt) ∧
  (∀ f : BitVec 9, (f.getLsbD 8 = false → sext9 f = f.zeroExtend 16) ∧
    (f.getLsbD 8 = true → sext9 f = f.zeroExtend 16 ||| (0xFFFF#16 <<< 9)) ∧ (sext9 f).toInt = f.toInt) ∧
  (∀ f : BitVec 11, (f.getLsbD 10 = false → sext11 f = f.zeroExtend 16) ∧
    (f.getLsbD 10 = true → sext11 f = f.zeroExtend 16 ||| (0xFFFF#16 <<< 11)) ∧ (sext11 f).toInt = f.toInt)

/-! ### Flags and memory -/

/-- R28: `setcc(v)` writes COND with the flag of `v` and nothing else. -/
def Obligations.SetccClassifiesTheValue : Prop :=
  ∀ (v : Word) (s : State), FlagIs v (s.setcc v).cond ∧ { s.setcc v with cond := s.cond } = s

/-- R53: `MemWrite(a, 1, v)` sets the word at `a` to `v` and changes no other address; R52: a read then returns it. The
canonical form of the list is the model's own (log 1). -/
def Obligations.MemoryWriteThenRead : Prop :=
  ∀ (s : State) (a b v : Word), Memory.wf s.mem = true →
    (s.memWrite a v).memRead a = v ∧ (b ≠ a → (s.memWrite a v).memRead b = s.memRead b)

/-- The model's memory (log 1) is canonical: a write keeps the form, and two memories in it that read alike at every
address are the same data. -/
def Obligations.MemoryFormIsCanonical : Prop :=
  (∀ (m : Memory) (a v : Word), Memory.wf m = true → Memory.wf (Memory.write m a v) = true) ∧
  ∀ m m' : Memory, Memory.wf m = true → Memory.wf m' = true →
    (∀ a, Memory.read m a = Memory.read m' a) → m = m'

/-! ### The engine -/

/-- R81: while ES = RUNNING and the engine is ready to fetch, a step puts the word at pc in IR, increments pc modulo
65536 and runs the instruction that word decodes to. -/
def Obligations.StepRunsTheDecodedInstruction : Prop :=
  ∀ s : State, s.es = .running .ready →
    step s = exec (decode (s.memRead s.pc)) { s with ir := s.memRead s.pc, pc := s.pc + 1 }

/-- R83, R92, R223: no word is illegal and nothing else stops the machine: every instruction, in every state, and every
step answers a next state. That a fault is a next state (log 26), that a step in CREATED, HALTED and FAULTED answers the
same state (log 2, 3), and that exec has a meaning in every state (log 24), are the model's choice. -/
def Obligations.NothingIsRefused : Prop :=
  (∀ (i : Instr) (s : State), ∃ t, exec i s = .next t) ∧ ∀ s : State, ∃ t, step s = .next t

/-- The invariant is kept by every step, from every state that has it. Its clauses on the form of memory (log 1), on IR
between instructions (log 20) and on the endless scan (log 8) speak of the model's own choices, those on COND and on R7 in
a faulted state of decisions D17 and D12 (log 29, 17). -/
def Obligations.StepKeepsTheInvariant : Prop :=
  ∀ s t : State, Inv s → step s = .next t → Inv t

/-- The state after creation reset has the invariant. COND is 0b000 there by decision D17 (log 29), and the canonical form
of memory is the model's own (log 1). -/
def Obligations.ResetHasTheInvariant : Prop := Inv State.reset

/-- Everything the host may do (R259) keeps the invariant: loading, START, booting, answering reads and writes, and
creation reset. That loading and START are ignored outside CREATED rests on decisions D18 and D19 (log 28), what a failed
load leaves on D18 (log 21). -/
def Obligations.HostEventsKeepTheInvariant : Prop :=
  ∀ s : State, Inv s →
    (∀ src landed, Inv (s.load src landed).1) ∧ Inv s.start ∧ (∀ images, Inv (State.boot images s)) ∧
    (∀ answers, Inv (s.answerInput answers)) ∧ (∀ p, Inv (s.answerOutput p)) ∧ Inv s.creationReset

/-- R82, R235: in HALTED and FAULTED nothing is fetched and everything keeps its value; before START nothing runs. That a
step then answers the same state is the model's choice (log 2, 3). -/
def Obligations.EndedMachineStays : Prop :=
  ∀ s : State, s.es = .halted ∨ (∃ f, s.es = .faulted f) ∨ s.es = .created → step s = .next s

/-- R32 (decision D19), R33, R214: the transitions of ES. A step never goes to CREATED; from RUNNING, ready, it halts only
by HALT, RTI or RES, faults only by a TRAP, waits only in GETC or IN; a waiting service goes on waiting only when the port
has not answered; a scan goes on, ends at a zero word, or faults at a write, and never halts. The waiting and scanning
states between steps are the model's (log 22, 8). -/
def Obligations.EngineStateTransitions : Prop :=
  ∀ s t : State, step s = .next t →
    (t.es = .created → s.es = .created) ∧
    (s.es = .running .ready →
      (t.es = .halted → stopsEngine (decode (s.memRead s.pc)) = true) ∧
      (∀ f, t.es = .faulted f → (trapVector (decode (s.memRead s.pc))).isSome = true) ∧
      (∀ svc, t.es = .running (.waitInput svc) → decode (s.memRead s.pc) = readInstr svc ∧ s.conIn = []) ∧
      (∀ svc, t.es = .running (.scanning svc) → decode (s.memRead s.pc) = scanInstr svc)) ∧
    (∀ svc, s.es = .running (.waitInput svc) →
      t.es = .running .ready ∨ (∃ f, t.es = .faulted f) ∨ (t = s ∧ s.conIn = [])) ∧
    ∀ svc, s.es = .running (.scanning svc) →
      t.es = .running (.scanning svc) ∨ (t.es = .running .ready ∧ ∃ a, s.memRead a = 0) ∨
        t.es = .faulted (.consoleIOError .conOut svc.vector (s.pc - 1))

/-- R26: pc is written by the fetch increment of every instruction, by BR when its condition holds, and by JMP, RET, JSR
and JSRR; every other instruction, and BR when its condition does not hold, leaves it where the fetch put it, and so does
going on with a service; START sets it to 0x3000, loading and answering leave it, and it is 0x0000 at creation. -/
def Obligations.OnlyControlTransfersWritePc : Prop :=
  (∀ s : State, s.es = .running .ready →
    step s = exec (decode (s.memRead s.pc)) { s with ir := s.memRead s.pc, pc := s.pc + 1 }) ∧
  (∀ (i : Instr) (s t : State), transfersControl i = false → exec i s = .next t → t.pc = s.pc) ∧
  (∀ (nzp : BitVec 3) (off : BitVec 9) (s t : State), nzp &&& s.cond = 0 → exec (.br nzp off) s = .next t →
    t.pc = s.pc) ∧
  (∀ s t : State, s.es ≠ .running .ready → step s = .next t → t.pc = s.pc) ∧
  State.reset.pc = 0 ∧ (∀ s : State, s.es = .created → s.start.pc = 0x3000) ∧
  ∀ s : State, (∀ src landed, (s.load src landed).1.pc = s.pc) ∧ (∀ answers, (s.answerInput answers).pc = s.pc) ∧
    ∀ p, (s.answerOutput p).pc = s.pc

/-- R21: the general registers are written only by the DR of ADD, AND, NOT, LD, LDI, LDR and LEA, R7 by JSR, JSRR and
every TRAP, and R0 by GETC and IN; every TRAP writes R7 with the return address; loading, START and the console's answers
write none. -/
def Obligations.OnlyDestinationsAreWritten : Prop :=
  (∀ (i : Instr) (s t : State) (r : Reg), exec i s = .next t → r ∉ writtenRegs i → t.reg r = s.reg r) ∧
  (∀ (i : Instr) (s t : State), (trapVector i).isSome = true → exec i s = .next t → t.reg 7 = s.pc) ∧
  (∀ (s t : State) (svc : ReadService), s.es = .running (.waitInput svc) → step s = .next t → SameRegsBut 0 s t) ∧
  (∀ (s t : State) (svc : ScanService), s.es = .running (.scanning svc) → step s = .next t → SameRegs s t) ∧
  ∀ s : State, (∀ src landed, SameRegs s (s.load src landed).1) ∧ SameRegs s s.start ∧
    (∀ answers, SameRegs s (s.answerInput answers)) ∧ ∀ p, SameRegs s (s.answerOutput p)

/-- R29: an instruction that sets the flags sets them from the value it leaves in its destination; every other instruction
leaves COND. GETC and IN set COND from R0 when they complete, at once or from WAIT_INPUT, and leave it when they wait or
fault (decision D16, log 19; the wait between steps is the model's, log 22). A scan that goes on leaves COND. -/
def Obligations.FlagsComeFromTheDestination : Prop :=
  (∀ (i : Instr) (s t : State), exec i s = .next t →
    (flagReg i = none → t.cond = s.cond) ∧
    (∀ r, flagReg i = some r → trapVector i = none → FlagIs (t.reg r) t.cond) ∧
    (∀ v, trapVector i = some v → t.cond = s.cond ∨ (flagReg i = some 0 ∧ FlagIs (t.reg 0) t.cond)) ∧
    (∀ r v, flagReg i = some r → trapVector i = some v → s.es = .running .ready →
      (t.es = .running .ready → FlagIs (t.reg r) t.cond) ∧ (t.es ≠ .running .ready → t.cond = s.cond))) ∧
  (∀ (s t : State) (svc : ReadService), s.es = .running (.waitInput svc) → step s = .next t →
    (t.es = .running .ready → FlagIs (t.reg 0) t.cond) ∧ (t.es ≠ .running .ready → t.cond = s.cond)) ∧
  ∀ (s t : State) (svc : ScanService), s.es = .running (.scanning svc) → step s = .next t → t.cond = s.cond

/-- R30: COND is read only by BR: for every other instruction, what COND held before changes nothing else of the state
after, and COND itself only if the instruction leaves it. -/
def Obligations.OnlyBranchesReadCond : Prop :=
  ∀ (i : Instr) (s t : State) (c : BitVec 3), (∀ nzp off, i ≠ .br nzp off) → exec i s = .next t →
    ∃ u, exec i { s with cond := c } = .next u ∧ { u with cond := t.cond } = t ∧
      (u.cond = t.cond ∨ (t.cond = s.cond ∧ u.cond = c))

/-- R34: while RUNNING memory is written only by ST, STI and STR; no service writes it (R181). -/
def Obligations.OnlyStoresWriteMemory : Prop :=
  (∀ (i : Instr) (s t : State), storesWord i = false → exec i s = .next t → t.mem = s.mem) ∧
  ∀ s t : State, s.es ≠ .running .ready → step s = .next t → t.mem = s.mem

/-- R220 to R223: a fault comes only from a TRAP: InvalidTrapVector from a vector that is none of the six, with that
vector; ConsoleIOError from a service with that service's vector; the record holds the TRAP's address, pc - 1. -/
def Obligations.FaultsComeOnlyFromTraps : Prop :=
  ∀ (i : Instr) (s t : State) (f : Fault), s.es = .running .ready → exec i s = .next t → t.es = .faulted f →
    (∃ v, i = .trap v ∧ recognisedVector v = false ∧ f = .invalidTrapVector v (s.pc - 1)) ∨
    ∃ port v, trapVector i = some v ∧ recognisedVector v = true ∧ f = .consoleIOError port v (s.pc - 1) ∧
      (port = .conIn → v = 0x20 ∨ v = 0x23) ∧ (port = .conOut → v ≠ 0x20)

/-- R232, R37, R6: only a TRAP reaches the console; what has been written stays written, in order; and no step changes
the parameters. -/
def Obligations.ConsoleOnlyByTraps : Prop :=
  (∀ (i : Instr) (s t : State), trapVector i = none → exec i s = .next t → SameConsole s t) ∧
  ∀ s t : State, step s = .next t → s.output <+: t.output ∧ t.cfg = s.cfg

/-! ### Operate instructions -/

/-- ADD, both modes: the sum modulo 65536, COND from it, and nothing else changes. -/
def Obligations.AddWritesTheSum : Prop :=
  ∀ (s : State) (dr sr1 sr2 : Reg) (imm5 : BitVec 5),
    (∃ t, exec (.addReg dr sr1 sr2) s = .next t ∧
      WritesRegCc dr (BitVec.ofNat 16 ((s.reg sr1).toNat + (s.reg sr2).toNat)) s t) ∧
    ∃ t, exec (.addImm dr sr1 imm5) s = .next t ∧
      WritesRegCc dr (BitVec.ofInt 16 ((s.reg sr1).toInt + imm5.toInt)) s t

/-- AND, both modes: each bit of the result is set when it is in both operands, COND from the result, and nothing else
changes. -/
def Obligations.AndWritesTheConjunction : Prop :=
  ∀ (s : State) (dr sr1 sr2 : Reg) (imm5 : BitVec 5),
    (∃ t, exec (.andReg dr sr1 sr2) s = .next t ∧ WritesRegCc dr (s.reg sr1 &&& s.reg sr2) s t) ∧
    ∃ t, exec (.andImm dr sr1 imm5) s = .next t ∧ WritesRegCc dr (s.reg sr1 &&& imm5.signExtend 16) s t

/-- NOT: every bit of SR1 complemented, COND from the result, and nothing else changes. -/
def Obligations.NotWritesTheComplement : Prop :=
  ∀ (s : State) (dr sr1 : Reg), ∃ t, exec (.not dr sr1) s = .next t ∧
    WritesRegCc dr (t.reg dr) s t ∧ ∀ k, k < 16 → (t.reg dr).getLsbD k = !(s.reg sr1).getLsbD k

/-! ### Control transfer -/

/-- BR (the order of n, z and p in the field is the spec's decision D4, log 11): the branch is taken when a selected flag
is COND's, then pc gets pc plus the signed offset modulo 65536; else pc stays; nothing else changes. -/
def Obligations.BranchFollowsTheFlags : Prop :=
  ∀ (s : State) (nzp : BitVec 3) (off : BitVec 9), ∃ t, exec (.br nzp off) s = .next t ∧
    SameRegs s t ∧ t.cond = s.cond ∧ SameMemory s t ∧ SameConsole s t ∧ SameEngine s t ∧
    (OneFlag s.cond →
      ((nzp.getLsbD 2 = true ∧ s.cond = condNeg) ∨ (nzp.getLsbD 1 = true ∧ s.cond = condZro) ∨
        (nzp.getLsbD 0 = true ∧ s.cond = condPos) → t.pc = BitVec.ofInt 16 (s.pc.toInt + off.toInt)) ∧
      (¬((nzp.getLsbD 2 = true ∧ s.cond = condNeg) ∨ (nzp.getLsbD 1 = true ∧ s.cond = condZro) ∨
        (nzp.getLsbD 0 = true ∧ s.cond = condPos)) → t.pc = s.pc)) ∧
    (nzp = 0 → t.pc = s.pc)

/-- R135, R136: JMP sets pc to its base register and RET sets it to R7; neither writes a register, a flag or memory. -/
def Obligations.JumpsGoToTheirRegister : Prop :=
  ∀ (s : State) (baseR : Reg),
    (∃ t, exec (.jmp baseR) s = .next t ∧ Jumps (s.reg baseR) s t) ∧
    ∃ t, exec .ret s = .next t ∧ Jumps (s.reg 7) s t

/-- JSR: R7 gets the return address, pc gets it plus the signed offset modulo 65536, and nothing else changes. -/
def Obligations.JsrLinksAndJumps : Prop :=
  ∀ (s : State) (off : BitVec 11), ∃ t, exec (.jsr off) s = .next t ∧
    Calls (BitVec.ofInt 16 (s.pc.toInt + off.toInt)) s t

/-- JSRR: R7 gets the return address and pc the base register's value; for base register R7, whose order the source
leaves open (parameter JSRR_LINK_FIRST, log 13), the new R7 when the link is written first and the old R7 otherwise. -/
def Obligations.JsrrLinksAndJumps : Prop :=
  ∀ (s : State) (baseR : Reg), ∃ t target, exec (.jsrr baseR) s = .next t ∧ Calls target s t ∧
    (baseR ≠ 7 → target = s.reg baseR) ∧
    (baseR = 7 → s.cfg.jsrrLinkFirst = true → target = s.pc) ∧
    (baseR = 7 → s.cfg.jsrrLinkFirst = false → target = s.reg 7)

/-! ### Loads and stores -/

/-- LD, LDI and LDR: the destination gets the word at the computed address (LDI: at the address the pointer word holds),
COND from it, and nothing else changes; the addresses wrap modulo 65536. -/
def Obligations.LoadsWriteTheWord : Prop :=
  ∀ (s : State) (dr baseR : Reg) (off9 : BitVec 9) (off6 : BitVec 6),
    (∃ t, exec (.ld dr off9) s = .next t ∧
      WritesRegCc dr (s.memRead (BitVec.ofInt 16 (s.pc.toInt + off9.toInt))) s t) ∧
    (∃ t, exec (.ldi dr off9) s = .next t ∧
      WritesRegCc dr (s.memRead (s.memRead (BitVec.ofInt 16 (s.pc.toInt + off9.toInt)))) s t) ∧
    ∃ t, exec (.ldr dr baseR off6) s = .next t ∧
      WritesRegCc dr (s.memRead (BitVec.ofInt 16 ((s.reg baseR).toInt + off6.toInt))) s t

/-- LEA: the destination gets the computed address itself, COND from it (90_conflicts.md C4), with no memory access. -/
def Obligations.LeaWritesTheAddress : Prop :=
  ∀ (s : State) (dr : Reg) (off9 : BitVec 9), ∃ t, exec (.lea dr off9) s = .next t ∧
    WritesRegCc dr (BitVec.ofInt 16 (s.pc.toInt + off9.toInt)) s t

/-- ST, STI and STR: the word at the computed address (STI: at the address the pointer word holds, read before the
write) gets SR's value; no other word, no register, no flag and not pc change. The premise is the model's invariant that
memory is in canonical form (log 1). -/
def Obligations.StoresWriteTheWord : Prop :=
  ∀ (s : State) (sr baseR : Reg) (off9 : BitVec 9) (off6 : BitVec 6), Memory.wf s.mem = true →
    (∃ t, exec (.st sr off9) s = .next t ∧ Stores (BitVec.ofInt 16 (s.pc.toInt + off9.toInt)) (s.reg sr) s t) ∧
    (∃ t, exec (.sti sr off9) s = .next t ∧
      Stores (s.memRead (BitVec.ofInt 16 (s.pc.toInt + off9.toInt))) (s.reg sr) s t) ∧
    ∃ t, exec (.str sr baseR off6) s = .next t ∧
      Stores (BitVec.ofInt 16 ((s.reg baseR).toInt + off6.toInt)) (s.reg sr) s t

/-- R64 (decision D15, log 18): a store by ST, STI or STR is in memory when its step ends, so a store to the next address is
what the next step fetches and runs; a store to the instruction's own address does not change that instruction, whose word
stays in the instruction register. The premise on the form of memory is the
model's invariant (log 1). -/
def Obligations.StoreIsSeenByTheNextFetch : Prop :=
  ∀ (s : State) (sr : Reg) (a : Word), Memory.wf s.mem = true → s.es = .running .ready →
    ((∃ off9, decode (s.memRead s.pc) = .st sr off9 ∧ a = BitVec.ofInt 16 ((s.pc + 1).toInt + off9.toInt)) ∨
      (∃ off9, decode (s.memRead s.pc) = .sti sr off9 ∧
        a = s.memRead (BitVec.ofInt 16 ((s.pc + 1).toInt + off9.toInt))) ∨
      ∃ baseR off6, decode (s.memRead s.pc) = .str sr baseR off6 ∧
        a = BitVec.ofInt 16 ((s.reg baseR).toInt + off6.toInt)) →
    let fetched := { s with ir := s.memRead s.pc, pc := s.pc + 1 }
    ∃ t, step s = .next t ∧ Stores a (s.reg sr) fetched t ∧ t.ir = s.memRead s.pc ∧
      (a = s.pc + 1 → step t = exec (decode (s.reg sr)) { t with ir := s.reg sr, pc := s.pc + 2 })

/-- R93: the word 0x0000 only advances pc, modulo 65536. That it is a BR rests on BR's PRESUMED opcode value (log 9). -/
def Obligations.ZeroWordOnlyAdvancesPc : Prop :=
  ∀ s : State, s.es = .running .ready → s.memRead s.pc = 0 →
    step s = .next { s with ir := 0, pc := s.pc + 1 }

/-! ### TRAP and the services -/

/-- R199, R221 (decision D12, log 17): a TRAP with a vector that is none of the six faults with its vector and address;
R7 is the return address, and nothing else of the registers, COND, pc, memory and console changes. -/
def Obligations.UnrecognisedVectorFaults : Prop :=
  ∀ (s : State) (v : Byte), recognisedVector v = false →
    ∃ t, exec (.trap v) s = .next t ∧ t.es = .faulted (.invalidTrapVector v (s.pc - 1)) ∧
      LinksOnly s t ∧ SameConsole s t

/-- GETC with its answer there at once (zero-extension is the spec's decision D11, log 16): R0 gets the byte the console answers, with its flag, which
is never NEG; R7 the return address; one answer is taken and nothing is written. -/
def Obligations.GetcReadsOneByte : Prop :=
  ∀ (s : State) (b : Byte) (rest : List InAnswer), s.conIn = .byte b :: rest →
    ∃ t, exec .getc s = .next t ∧ ReadsChar (BitVec.ofNat 16 b.toNat) s t ∧ t.cond ≠ condNeg ∧
      t.conIn = rest ∧ t.conOut = s.conOut ∧ t.output = s.output

/-- R33, R182 (decision D16, log 19): GETC with no answer yet waits in WAIT_INPUT (a state between steps by the model's
choice, log 22) with nothing done but the link; with io_error it faults, R0 and COND unchanged. -/
def Obligations.GetcWaitsOrFails : Prop :=
  ∀ s : State,
    (s.conIn = [] → ∃ t, exec .getc s = .next t ∧ t.es = .running (.waitInput .getc) ∧
      LinksOnly s t ∧ SameConsole s t) ∧
    ∀ rest, s.conIn = .ioError :: rest →
      ∃ t, exec .getc s = .next t ∧ t.es = .faulted (.consoleIOError .conIn 0x20 (s.pc - 1)) ∧
        LinksOnly s t ∧ t.conIn = rest ∧ t.conOut = s.conOut ∧ t.output = s.output

/-- OUT: the low byte of R0 is written when the port accepts it, R7 is the return address and nothing else changes; when
the port answers io_error the machine faults (decision D16, log 19) and no byte is written (DEDUCED, log 6). -/
def Obligations.OutWritesTheLowByte : Prop :=
  ∀ s : State,
    (s.conOut.accepts 1 = true → ∃ t, exec .out s = .next t ∧ LinksOnly s t ∧ t.es = s.es ∧ t.conIn = s.conIn ∧
      t.conOut = s.conOut.after 1 ∧ t.output = s.output ++ [BitVec.ofNat 8 (s.reg 0).toNat]) ∧
    (s.conOut = .failingAfter 0 → ∃ t, exec .out s = .next t ∧ LinksOnly s t ∧
      t.es = .faulted (.consoleIOError .conOut 0x21 (s.pc - 1)) ∧ t.conIn = s.conIn ∧ t.output = s.output)

/-- PUTS (the low byte of each word is the spec's decision D9, log 15): when the `n`-th word from R0 on (addresses wrap)
is the first zero word, the low bytes of the `n` words before it are written in address order; R7 is the return address
and nothing else changes. When the port fails after `m` of them, the machine faults with what was done before kept
(decision D16, log 19), and exactly those `m` are written (DEDUCED, log 6). -/
def Obligations.PutsWritesUpToTheZeroWord : Prop :=
  ∀ (s : State) (n : Nat), n < 65536 →
    (∀ k, k < n → s.memRead (s.reg 0 + BitVec.ofNat 16 k) ≠ 0) → s.memRead (s.reg 0 + BitVec.ofNat 16 n) = 0 →
    let bytes := (List.range n).map fun k => BitVec.ofNat 8 (s.memRead (s.reg 0 + BitVec.ofNat 16 k)).toNat
    (s.conOut.accepts n = true → ∃ t, exec .puts s = .next t ∧ LinksOnly s t ∧ t.es = s.es ∧ t.conIn = s.conIn ∧
      t.conOut = s.conOut.after n ∧ t.output = s.output ++ bytes) ∧
    ∀ m, m < n → s.conOut = .failingAfter m → ∃ t, exec .puts s = .next t ∧ LinksOnly s t ∧
      t.es = .faulted (.consoleIOError .conOut 0x22 (s.pc - 1)) ∧ t.conIn = s.conIn ∧ t.output = s.output ++ bytes.take m

/-- PUTSP (the literal reading is the spec's decision D10, log 15): as PUTS, but each word gives its low byte and then,
if it is not zero, its high byte. On a port that fails, as PUTS: decision D16 (log 19), and the exact output DEDUCED
(log 6). -/
def Obligations.PutspWritesPackedBytes : Prop :=
  ∀ (s : State) (n : Nat), n < 65536 →
    (∀ k, k < n → s.memRead (s.reg 0 + BitVec.ofNat 16 k) ≠ 0) → s.memRead (s.reg 0 + BitVec.ofNat 16 n) = 0 →
    let bytes := (List.range n).flatMap fun k => packedBytes (s.memRead (s.reg 0 + BitVec.ofNat 16 k))
    (s.conOut.accepts bytes.length = true → ∃ t, exec .putsp s = .next t ∧ LinksOnly s t ∧ t.es = s.es ∧
      t.conIn = s.conIn ∧ t.conOut = s.conOut.after bytes.length ∧ t.output = s.output ++ bytes) ∧
    ∀ m, m < bytes.length → s.conOut = .failingAfter m → ∃ t, exec .putsp s = .next t ∧ LinksOnly s t ∧
      t.es = .faulted (.consoleIOError .conOut 0x24 (s.pc - 1)) ∧ t.conIn = s.conIn ∧ t.output = s.output ++ bytes.take m

/-- R188, R196, I5: when no word of memory is zero, PUTS and PUTSP never complete. The instruction and every step after it
write a pass over all 65536 words from R0 on, and every number of further steps leaves the engine in the scan while the
port accepts; when the port fails after `m` bytes of a pass the machine faults with those `m` written. The bytes are those
of decisions D9 and D10 (log 15); the sub-state that holds the unfinished scan, and one pass a step, are the model's choice
(log 8); what a failure keeps is decision D16 (log 19), its exact output DEDUCED (log 6). -/
def Obligations.EndlessScanRepeatsMemory : Prop :=
  ∀ (s : State) (svc : ScanService), (∀ a, s.memRead a ≠ 0) →
    let pass := passBytes svc s
    let failed := EngineState.faulted (.consoleIOError .conOut svc.vector (s.pc - 1))
    (s.conOut.accepts pass.length = true → ∃ t, exec (scanInstr svc) s = .next t ∧ LinksOnly s t ∧
      t.es = .running (.scanning svc) ∧ t.conIn = s.conIn ∧ t.conOut = s.conOut.after pass.length ∧
      t.output = s.output ++ pass) ∧
    (∀ m, m < pass.length → s.conOut = .failingAfter m → ∃ t, exec (scanInstr svc) s = .next t ∧ LinksOnly s t ∧
      t.es = failed ∧ t.conIn = s.conIn ∧ t.output = s.output ++ pass.take m) ∧
    (s.es = .running (.scanning svc) →
      (s.conOut.accepts pass.length = true →
        step s = .next { s with conOut := s.conOut.after pass.length, output := s.output ++ pass }) ∧
      (∀ m, m < pass.length → s.conOut = .failingAfter m →
        step s = .next { s with es := failed, conOut := .failingAfter 0, output := s.output ++ pass.take m }) ∧
      (s.conOut = .accepting → ∀ n, Host.Core.run Sys2Proof.core n s =
        .next { s with output := s.output ++ (List.replicate n pass).flatten }))

/-- IN with its answer there at once (one read is the spec's decision D7, log 14; zero-extension D11, log 16): the prompt and then the byte read are
written, R0 gets the byte with its flag, R7 the return address; one answer is taken. -/
def Obligations.InPromptsReadsAndEchoes : Prop :=
  ∀ (s : State) (b : Byte) (rest : List InAnswer), s.conIn = .byte b :: rest →
    s.conOut.accepts (s.cfg.inPrompt.length + 1) = true →
    ∃ t, exec .inChar s = .next t ∧ ReadsChar (BitVec.ofNat 16 b.toNat) s t ∧ t.cond ≠ condNeg ∧
      t.conIn = rest ∧ t.conOut = s.conOut.after (s.cfg.inPrompt.length + 1) ∧
      t.output = s.output ++ s.cfg.inPrompt ++ [b]

/-- R33, R38, R182 (decision D16, log 19): IN with no answer yet waits with its prompt written; a prompt write that fails
ends it before the read; a failing read, or a failing echo, leaves R0 and COND unchanged. The order of echo and R0 is
decision D7's (log 14), the exact output of a failure DEDUCED (log 6), the wait between steps the model's (log 22). -/
def Obligations.InWaitsOrFails : Prop :=
  ∀ s : State,
    (s.conIn = [] → s.conOut.accepts s.cfg.inPrompt.length = true →
      ∃ t, exec .inChar s = .next t ∧ t.es = .running (.waitInput .inChar) ∧ LinksOnly s t ∧ t.conIn = [] ∧
        t.conOut = s.conOut.after s.cfg.inPrompt.length ∧ t.output = s.output ++ s.cfg.inPrompt) ∧
    (∀ rest, s.conIn = .ioError :: rest → s.conOut.accepts s.cfg.inPrompt.length = true →
      ∃ t, exec .inChar s = .next t ∧ t.es = .faulted (.consoleIOError .conIn 0x23 (s.pc - 1)) ∧ LinksOnly s t ∧
        t.conIn = rest ∧ t.output = s.output ++ s.cfg.inPrompt) ∧
    (∀ m, s.conOut = .failingAfter m → m < s.cfg.inPrompt.length →
      ∃ t, exec .inChar s = .next t ∧ t.es = .faulted (.consoleIOError .conOut 0x23 (s.pc - 1)) ∧ LinksOnly s t ∧
        t.conIn = s.conIn ∧ t.output = s.output ++ s.cfg.inPrompt.take m) ∧
    ∀ b rest, s.conIn = .byte b :: rest → s.conOut = .failingAfter s.cfg.inPrompt.length →
      ∃ t, exec .inChar s = .next t ∧ t.es = .faulted (.consoleIOError .conOut 0x23 (s.pc - 1)) ∧ LinksOnly s t ∧
        t.conIn = rest ∧ t.output = s.output ++ s.cfg.inPrompt

/-- R33, R235: WAIT_INPUT. Without an answer a step changes nothing; with a byte the waiting GETC, or IN with its echo,
completes as it would have at once, from R0 and COND on, and the engine is ready to fetch; with io_error, and when IN's echo
fails, it faults with R0 and COND unchanged. The wait that a later step ends is the model's choice (log 22); one read, and
the echo before R0, are decision D7 (log 14); zero-extension is D11 (log 16); what a failure keeps is D16 (log 19), and that
the failed echo is not in the output DEDUCED (log 6). -/
def Obligations.WaitInputEndsByAnAnswer : Prop :=
  ∀ (s : State) (svc : ReadService), s.es = .running (.waitInput svc) →
    (s.conIn = [] → step s = .next s) ∧
    (∀ b rest, s.conIn = .byte b :: rest → (svc = .inChar → s.conOut.accepts 1 = true) →
      ∃ t, step s = .next t ∧ t.reg 0 = BitVec.ofNat 16 b.toNat ∧ FlagIs (t.reg 0) t.cond ∧ SameRegsBut 0 s t ∧
        t.pc = s.pc ∧ SameMemory s t ∧ t.es = .running .ready ∧ t.ir = s.ir ∧ t.cfg = s.cfg ∧ t.conIn = rest ∧
        t.conOut = (if svc = .inChar then s.conOut.after 1 else s.conOut) ∧
        t.output = s.output ++ (if svc = .inChar then [b] else [])) ∧
    (∀ rest, s.conIn = .ioError :: rest →
      ∃ t, step s = .next t ∧ t.es = .faulted (.consoleIOError .conIn svc.vector (s.pc - 1)) ∧
        SameRegs s t ∧ t.cond = s.cond ∧ t.pc = s.pc ∧ SameMemory s t ∧ t.ir = s.ir ∧ t.cfg = s.cfg ∧
        t.conIn = rest ∧ t.conOut = s.conOut ∧ t.output = s.output) ∧
    ∀ b rest, svc = .inChar → s.conIn = .byte b :: rest → s.conOut = .failingAfter 0 →
      ∃ t, step s = .next t ∧ t.es = .faulted (.consoleIOError .conOut 0x23 (s.pc - 1)) ∧
        SameRegs s t ∧ t.cond = s.cond ∧ t.pc = s.pc ∧ SameMemory s t ∧ t.ir = s.ir ∧ t.cfg = s.cfg ∧
        t.conIn = rest ∧ t.conOut = s.conOut ∧ t.output = s.output

/-- HALT: the banner is written and ES is HALTED; R7 is the return address, pc stays there and nothing else changes; when
a banner write fails ES is FAULTED, not HALTED (R182; decision D16, log 19), with exactly the bytes before it written
(DEDUCED, log 6). -/
def Obligations.HaltWritesTheBannerAndHalts : Prop :=
  ∀ s : State,
    (s.conOut.accepts s.cfg.haltBanner.length = true → ∃ t, exec .halt s = .next t ∧ t.es = .halted ∧
      LinksOnly s t ∧ t.conIn = s.conIn ∧ t.conOut = s.conOut.after s.cfg.haltBanner.length ∧
      t.output = s.output ++ s.cfg.haltBanner) ∧
    ∀ m, s.conOut = .failingAfter m → m < s.cfg.haltBanner.length → ∃ t, exec .halt s = .next t ∧
      t.es = .faulted (.consoleIOError .conOut 0x25 (s.pc - 1)) ∧ LinksOnly s t ∧ t.conIn = s.conIn ∧
      t.output = s.output ++ s.cfg.haltBanner.take m

/-- R210, R212: every word whose opcode is 1000 is RTI and every word whose opcode is 1101 is RES, whatever the other
bits hold (decision D5, log 12); each halts the engine, and changes nothing else: no register, flag, pc, memory or
console. -/
def Obligations.ReservedOpcodesHalt : Prop :=
  (∀ w : Word, w &&& 0xF000 = 0x8000 → decode w = .rti) ∧ (∀ w : Word, w &&& 0xF000 = 0xD000 → decode w = .res) ∧
  ∀ s : State,
    (∃ t, exec .rti s = .next t ∧ t.es = .halted ∧ { t with es := s.es } = s) ∧
    ∃ t, exec .res s = .next t ∧ t.es = .halted ∧ { t with es := s.es } = s

/-! ### What the host answers -/

/-- R259, R37, R38: the host may settle at any time, also anew for a machine created after a failure, whether the coming
writes are answered ok or io_error, and may add answers to the coming reads; nothing else of the machine changes, and OUT
then writes its byte or faults by that answer. That the answers stand in State is the model's choice (log 4, 5, 25); what a
failure keeps is decision D16 (log 19), and that its byte is not in the output DEDUCED (log 6). -/
def Obligations.HostAnswersTheConsole : Prop :=
  ∀ s : State,
    (∀ p, (s.answerOutput p).conOut = p ∧ { s.answerOutput p with conOut := s.conOut } = s ∧
      s.creationReset.answerOutput p = { State.reset with cfg := s.cfg, conIn := s.conIn, conOut := p }) ∧
    (∀ answers, (s.answerInput answers).conIn = s.conIn ++ answers ∧
      { s.answerInput answers with conIn := s.conIn } = s) ∧
    (∃ t, exec .out (s.answerOutput .accepting) = .next t ∧ t.es = s.es ∧
      t.output = s.output ++ [BitVec.ofNat 8 (s.reg 0).toNat]) ∧
    ∃ t, exec .out (s.answerOutput (.failingAfter 0)) = .next t ∧
      t.es = .faulted (.consoleIOError .conOut 0x21 (s.pc - 1)) ∧ t.output = s.output
end

