-- ==== Sys2Proof/Laws/State.lean ====
section
/-! SUPPORT. What each update of the state leaves in each field: one lemma per field per update. -/

namespace Sys2Proof.Machine

/-! ### Fields after `setcc` -/

@[simp] theorem setcc_regs (s : State) (v : Word) : (s.setcc v).regs = s.regs := rfl
@[simp] theorem setcc_pc (s : State) (v : Word) : (s.setcc v).pc = s.pc := rfl
@[simp] theorem setcc_cond (s : State) (v : Word) : (s.setcc v).cond = flagOf v := rfl
@[simp] theorem setcc_es (s : State) (v : Word) : (s.setcc v).es = s.es := rfl
@[simp] theorem setcc_ir (s : State) (v : Word) : (s.setcc v).ir = s.ir := rfl
@[simp] theorem setcc_mem (s : State) (v : Word) : (s.setcc v).mem = s.mem := rfl
@[simp] theorem setcc_cfg (s : State) (v : Word) : (s.setcc v).cfg = s.cfg := rfl
@[simp] theorem setcc_conIn (s : State) (v : Word) : (s.setcc v).conIn = s.conIn := rfl
@[simp] theorem setcc_conOut (s : State) (v : Word) : (s.setcc v).conOut = s.conOut := rfl
@[simp] theorem setcc_output (s : State) (v : Word) : (s.setcc v).output = s.output := rfl

/-! ### Fields after `memWrite` -/

@[simp] theorem memWrite_regs (s : State) (a v : Word) : (s.memWrite a v).regs = s.regs := rfl
@[simp] theorem memWrite_pc (s : State) (a v : Word) : (s.memWrite a v).pc = s.pc := rfl
@[simp] theorem memWrite_cond (s : State) (a v : Word) : (s.memWrite a v).cond = s.cond := rfl
@[simp] theorem memWrite_es (s : State) (a v : Word) : (s.memWrite a v).es = s.es := rfl
@[simp] theorem memWrite_ir (s : State) (a v : Word) : (s.memWrite a v).ir = s.ir := rfl
@[simp] theorem memWrite_mem (s : State) (a v : Word) : (s.memWrite a v).mem = Memory.write s.mem a v := rfl
@[simp] theorem memWrite_cfg (s : State) (a v : Word) : (s.memWrite a v).cfg = s.cfg := rfl
@[simp] theorem memWrite_conIn (s : State) (a v : Word) : (s.memWrite a v).conIn = s.conIn := rfl
@[simp] theorem memWrite_conOut (s : State) (a v : Word) : (s.memWrite a v).conOut = s.conOut := rfl
@[simp] theorem memWrite_output (s : State) (a v : Word) : (s.memWrite a v).output = s.output := rfl

/-! ### Fields after `setReg` -/

@[simp] theorem setReg_pc (s : State) (r : Reg) (v : Word) : (s.setReg r v).pc = s.pc := rfl
@[simp] theorem setReg_cond (s : State) (r : Reg) (v : Word) : (s.setReg r v).cond = s.cond := rfl
@[simp] theorem setReg_es (s : State) (r : Reg) (v : Word) : (s.setReg r v).es = s.es := rfl
@[simp] theorem setReg_ir (s : State) (r : Reg) (v : Word) : (s.setReg r v).ir = s.ir := rfl
@[simp] theorem setReg_mem (s : State) (r : Reg) (v : Word) : (s.setReg r v).mem = s.mem := rfl
@[simp] theorem setReg_cfg (s : State) (r : Reg) (v : Word) : (s.setReg r v).cfg = s.cfg := rfl
@[simp] theorem setReg_conIn (s : State) (r : Reg) (v : Word) : (s.setReg r v).conIn = s.conIn := rfl
@[simp] theorem setReg_conOut (s : State) (r : Reg) (v : Word) : (s.setReg r v).conOut = s.conOut := rfl
@[simp] theorem setReg_output (s : State) (r : Reg) (v : Word) : (s.setReg r v).output = s.output := rfl

/-! ### Fields after `setPc` -/

@[simp] theorem setPc_regs (s : State) (t : Word) : (s.setPc t).regs = s.regs := rfl
@[simp] theorem setPc_pc (s : State) (t : Word) : (s.setPc t).pc = t := rfl
@[simp] theorem setPc_cond (s : State) (t : Word) : (s.setPc t).cond = s.cond := rfl
@[simp] theorem setPc_es (s : State) (t : Word) : (s.setPc t).es = s.es := rfl
@[simp] theorem setPc_ir (s : State) (t : Word) : (s.setPc t).ir = s.ir := rfl
@[simp] theorem setPc_mem (s : State) (t : Word) : (s.setPc t).mem = s.mem := rfl
@[simp] theorem setPc_cfg (s : State) (t : Word) : (s.setPc t).cfg = s.cfg := rfl
@[simp] theorem setPc_conIn (s : State) (t : Word) : (s.setPc t).conIn = s.conIn := rfl
@[simp] theorem setPc_conOut (s : State) (t : Word) : (s.setPc t).conOut = s.conOut := rfl
@[simp] theorem setPc_output (s : State) (t : Word) : (s.setPc t).output = s.output := rfl

/-! ### Fields after `setEs` -/

@[simp] theorem setEs_regs (s : State) (e : EngineState) : (s.setEs e).regs = s.regs := rfl
@[simp] theorem setEs_pc (s : State) (e : EngineState) : (s.setEs e).pc = s.pc := rfl
@[simp] theorem setEs_cond (s : State) (e : EngineState) : (s.setEs e).cond = s.cond := rfl
@[simp] theorem setEs_es (s : State) (e : EngineState) : (s.setEs e).es = e := rfl
@[simp] theorem setEs_ir (s : State) (e : EngineState) : (s.setEs e).ir = s.ir := rfl
@[simp] theorem setEs_mem (s : State) (e : EngineState) : (s.setEs e).mem = s.mem := rfl
@[simp] theorem setEs_cfg (s : State) (e : EngineState) : (s.setEs e).cfg = s.cfg := rfl
@[simp] theorem setEs_conIn (s : State) (e : EngineState) : (s.setEs e).conIn = s.conIn := rfl
@[simp] theorem setEs_conOut (s : State) (e : EngineState) : (s.setEs e).conOut = s.conOut := rfl
@[simp] theorem setEs_output (s : State) (e : EngineState) : (s.setEs e).output = s.output := rfl

/-! ### Fields after `fetch` -/

@[simp] theorem fetch_regs (s : State) : (s.fetch).regs = s.regs := rfl
@[simp] theorem fetch_pc (s : State) : (s.fetch).pc = s.pc + 1 := rfl
@[simp] theorem fetch_cond (s : State) : (s.fetch).cond = s.cond := rfl
@[simp] theorem fetch_es (s : State) : (s.fetch).es = s.es := rfl
@[simp] theorem fetch_ir (s : State) : (s.fetch).ir = s.memRead s.pc := rfl
@[simp] theorem fetch_mem (s : State) : (s.fetch).mem = s.mem := rfl
@[simp] theorem fetch_cfg (s : State) : (s.fetch).cfg = s.cfg := rfl
@[simp] theorem fetch_conIn (s : State) : (s.fetch).conIn = s.conIn := rfl
@[simp] theorem fetch_conOut (s : State) : (s.fetch).conOut = s.conOut := rfl
@[simp] theorem fetch_output (s : State) : (s.fetch).output = s.output := rfl

/-! ### Fields after `wrote` -/

@[simp] theorem wrote_regs (s : State) (bs : List Byte) : (s.wrote bs).regs = s.regs := rfl
@[simp] theorem wrote_pc (s : State) (bs : List Byte) : (s.wrote bs).pc = s.pc := rfl
@[simp] theorem wrote_cond (s : State) (bs : List Byte) : (s.wrote bs).cond = s.cond := rfl
@[simp] theorem wrote_es (s : State) (bs : List Byte) : (s.wrote bs).es = s.es := rfl
@[simp] theorem wrote_ir (s : State) (bs : List Byte) : (s.wrote bs).ir = s.ir := rfl
@[simp] theorem wrote_mem (s : State) (bs : List Byte) : (s.wrote bs).mem = s.mem := rfl
@[simp] theorem wrote_cfg (s : State) (bs : List Byte) : (s.wrote bs).cfg = s.cfg := rfl
@[simp] theorem wrote_conIn (s : State) (bs : List Byte) : (s.wrote bs).conIn = s.conIn := rfl
@[simp] theorem wrote_conOut (s : State) (bs : List Byte) : (s.wrote bs).conOut = s.conOut.after bs.length := rfl
@[simp] theorem wrote_output (s : State) (bs : List Byte) : (s.wrote bs).output = s.output ++ bs := rfl

/-! ### Fields after `answerInput` -/

@[simp] theorem answerInput_regs (s : State) (answers : List InAnswer) : (s.answerInput answers).regs = s.regs := rfl
@[simp] theorem answerInput_pc (s : State) (answers : List InAnswer) : (s.answerInput answers).pc = s.pc := rfl
@[simp] theorem answerInput_cond (s : State) (answers : List InAnswer) : (s.answerInput answers).cond = s.cond := rfl
@[simp] theorem answerInput_es (s : State) (answers : List InAnswer) : (s.answerInput answers).es = s.es := rfl
@[simp] theorem answerInput_ir (s : State) (answers : List InAnswer) : (s.answerInput answers).ir = s.ir := rfl
@[simp] theorem answerInput_mem (s : State) (answers : List InAnswer) : (s.answerInput answers).mem = s.mem := rfl
@[simp] theorem answerInput_cfg (s : State) (answers : List InAnswer) : (s.answerInput answers).cfg = s.cfg := rfl
@[simp] theorem answerInput_conIn (s : State) (answers : List InAnswer) : (s.answerInput answers).conIn = s.conIn ++ answers := rfl
@[simp] theorem answerInput_conOut (s : State) (answers : List InAnswer) : (s.answerInput answers).conOut = s.conOut := rfl
@[simp] theorem answerInput_output (s : State) (answers : List InAnswer) : (s.answerInput answers).output = s.output := rfl

/-! ### Fields after `answerOutput` -/

@[simp] theorem answerOutput_regs (s : State) (p : OutPort) : (s.answerOutput p).regs = s.regs := rfl
@[simp] theorem answerOutput_pc (s : State) (p : OutPort) : (s.answerOutput p).pc = s.pc := rfl
@[simp] theorem answerOutput_cond (s : State) (p : OutPort) : (s.answerOutput p).cond = s.cond := rfl
@[simp] theorem answerOutput_es (s : State) (p : OutPort) : (s.answerOutput p).es = s.es := rfl
@[simp] theorem answerOutput_ir (s : State) (p : OutPort) : (s.answerOutput p).ir = s.ir := rfl
@[simp] theorem answerOutput_mem (s : State) (p : OutPort) : (s.answerOutput p).mem = s.mem := rfl
@[simp] theorem answerOutput_cfg (s : State) (p : OutPort) : (s.answerOutput p).cfg = s.cfg := rfl
@[simp] theorem answerOutput_conIn (s : State) (p : OutPort) : (s.answerOutput p).conIn = s.conIn := rfl
@[simp] theorem answerOutput_conOut (s : State) (p : OutPort) : (s.answerOutput p).conOut = p := rfl
@[simp] theorem answerOutput_output (s : State) (p : OutPort) : (s.answerOutput p).output = s.output := rfl

/-! ### Fields after `answered` -/

@[simp] theorem answered_regs (s : State) : (s.answered).regs = s.regs := rfl
@[simp] theorem answered_pc (s : State) : (s.answered).pc = s.pc := rfl
@[simp] theorem answered_cond (s : State) : (s.answered).cond = s.cond := rfl
@[simp] theorem answered_es (s : State) : (s.answered).es = s.es := rfl
@[simp] theorem answered_ir (s : State) : (s.answered).ir = s.ir := rfl
@[simp] theorem answered_mem (s : State) : (s.answered).mem = s.mem := rfl
@[simp] theorem answered_cfg (s : State) : (s.answered).cfg = s.cfg := rfl
@[simp] theorem answered_conIn (s : State) : (s.answered).conIn = s.conIn.tail := rfl
@[simp] theorem answered_conOut (s : State) : (s.answered).conOut = s.conOut := rfl
@[simp] theorem answered_output (s : State) : (s.answered).output = s.output := rfl

/-! ### The composed updates, in terms of the plain ones -/

@[simp] theorem setRegCc_eq (s : State) (r : Reg) (v : Word) : s.setRegCc r v = (s.setReg r v).setcc v := rfl
@[simp] theorem link_eq (s : State) : s.link = s.setReg 7 s.pc := rfl
@[simp] theorem trapEntry_eq (s : State) : s.trapEntry = s.setReg 7 s.pc := rfl
@[simp] theorem halt_eq (s : State) : s.halt = s.setEs .halted := rfl
@[simp] theorem trapReturn_eq (s : State) : s.trapReturn = s.setEs (.running .ready) := rfl
@[simp] theorem raise_eq (s : State) (f : Fault) : s.raise f = s.setEs (.faulted f) := rfl
@[simp] theorem trapAddress_eq (s : State) : s.trapAddress = s.pc - 1 := rfl

/-! ### Registers and memory words after an update -/

@[simp] theorem reg_setcc (s : State) (v : Word) (q : Reg) : (s.setcc v).reg q = s.reg q := rfl
@[simp] theorem memRead_setcc (s : State) (v : Word) (q : Word) : (s.setcc v).memRead q = s.memRead q := rfl
@[simp] theorem reg_memWrite (s : State) (a v : Word) (q : Reg) : (s.memWrite a v).reg q = s.reg q := rfl
@[simp] theorem memRead_setReg (s : State) (r : Reg) (v : Word) (q : Word) : (s.setReg r v).memRead q = s.memRead q := rfl
@[simp] theorem reg_setPc (s : State) (t : Word) (q : Reg) : (s.setPc t).reg q = s.reg q := rfl
@[simp] theorem memRead_setPc (s : State) (t : Word) (q : Word) : (s.setPc t).memRead q = s.memRead q := rfl
@[simp] theorem reg_setEs (s : State) (e : EngineState) (q : Reg) : (s.setEs e).reg q = s.reg q := rfl
@[simp] theorem memRead_setEs (s : State) (e : EngineState) (q : Word) : (s.setEs e).memRead q = s.memRead q := rfl
@[simp] theorem reg_fetch (s : State) (q : Reg) : (s.fetch).reg q = s.reg q := rfl
@[simp] theorem memRead_fetch (s : State) (q : Word) : (s.fetch).memRead q = s.memRead q := rfl
@[simp] theorem reg_wrote (s : State) (bs : List Byte) (q : Reg) : (s.wrote bs).reg q = s.reg q := rfl
@[simp] theorem memRead_wrote (s : State) (bs : List Byte) (q : Word) : (s.wrote bs).memRead q = s.memRead q := rfl
@[simp] theorem reg_answerInput (s : State) (answers : List InAnswer) (q : Reg) : (s.answerInput answers).reg q = s.reg q := rfl
@[simp] theorem memRead_answerInput (s : State) (answers : List InAnswer) (q : Word) : (s.answerInput answers).memRead q = s.memRead q := rfl
@[simp] theorem reg_answerOutput (s : State) (p : OutPort) (q : Reg) : (s.answerOutput p).reg q = s.reg q := rfl
@[simp] theorem memRead_answerOutput (s : State) (p : OutPort) (q : Word) : (s.answerOutput p).memRead q = s.memRead q := rfl
@[simp] theorem reg_answered (s : State) (q : Reg) : (s.answered).reg q = s.reg q := rfl
@[simp] theorem memRead_answered (s : State) (q : Word) : (s.answered).memRead q = s.memRead q := rfl

@[simp] theorem reg_setReg_self (s : State) (r : Reg) (v : Word) : (s.setReg r v).reg r = v := by
  simp [State.reg, State.setReg]

theorem reg_setReg_ne (s : State) {r q : Reg} (v : Word) (h : q ≠ r) : (s.setReg r v).reg q = s.reg q := by
  have hv : r.val ≠ q.val := fun e => h (Fin.ext e.symm)
  simp [State.reg, State.setReg, hv]

theorem reg_setReg (s : State) (r q : Reg) (v : Word) :
    (s.setReg r v).reg q = if q = r then v else s.reg q := by
  by_cases h : q = r
  · subst h; simp
  · simp [h, reg_setReg_ne]

/-- After the fetch the instruction register holds the word that was at pc. -/
theorem fetch_ir_eq (s : State) : s.fetch.ir = s.memRead s.pc := rfl

end Sys2Proof.Machine
end

