-- ==== Sys2Proof/Laws/Console.lean ====
section
/-! SUPPORT. The laws of the console operations and of the scan of PUTS and PUTSP: what each can do, said once. -/

namespace Sys2Proof.Machine

/-! ### The output port -/

@[simp] theorem OutPort.accepts_accepting (n : Nat) : OutPort.accepts n .accepting = true := rfl
@[simp] theorem OutPort.after_accepting (n : Nat) : OutPort.after n .accepting = .accepting := rfl
@[simp] theorem OutPort.accepts_failingAfter (n m : Nat) :
    OutPort.accepts n (.failingAfter m) = decide (n ≤ m) := rfl
@[simp] theorem OutPort.after_failingAfter (n m : Nat) :
    OutPort.after n (.failingAfter m) = .failingAfter (m - n) := rfl

/-- A port that does not accept `n` writes fails after fewer than `n`. -/
theorem OutPort.not_accepts {p : OutPort} {n : Nat} (h : p.accepts n = false) :
    ∃ m, p = .failingAfter m ∧ m < n ∧ p.accepted n = m := by
  cases p with
  | accepting => cases h
  | failingAfter m =>
    have hm : m < n := by simpa using h
    exact ⟨m, rfl, hm, by simp [OutPort.accepted, Nat.min_eq_right (Nat.le_of_lt hm)]⟩

/-! ### Writing -/

theorem consoleWrite_ok {v : Byte} {bs : List Byte} {k : State → State} {s : State}
    (h : s.conOut.accepts bs.length = true) : s.consoleWrite v bs k = k (s.wrote bs) := by
  simp [State.consoleWrite, h]

theorem consoleWrite_fail {v : Byte} {bs : List Byte} {k : State → State} {s : State}
    (h : s.conOut.accepts bs.length = false) :
    s.consoleWrite v bs k =
      (s.wrote (bs.take (s.conOut.accepted bs.length))).setEs
        (.faulted (.consoleIOError .conOut v (s.pc - 1))) := by
  simp [State.consoleWrite, h]

/-- What a write can do: all bytes are accepted and the service goes on, or ConsoleIOError is raised with a part of them
written. -/
theorem consoleWrite_cases (v : Byte) (bs : List Byte) (k : State → State) (s : State) :
    s.consoleWrite v bs k = k (s.wrote bs) ∨
      ∃ n, s.consoleWrite v bs k =
        (s.wrote (bs.take n)).setEs (.faulted (.consoleIOError .conOut v (s.pc - 1))) := by
  cases h : s.conOut.accepts bs.length with
  | true => exact .inl (consoleWrite_ok h)
  | false => exact .inr ⟨_, consoleWrite_fail h⟩

/-! ### Reading -/

theorem consoleRead_byte {svc : ReadService} {k : Byte → State → State} {s : State} {b : Byte}
    {rest : List InAnswer} (h : s.conIn = .byte b :: rest) : s.consoleRead svc k = k b s.answered := by
  simp [State.consoleRead, h]

theorem consoleRead_ioError {svc : ReadService} {k : Byte → State → State} {s : State}
    {rest : List InAnswer} (h : s.conIn = .ioError :: rest) :
    s.consoleRead svc k =
      s.answered.setEs (.faulted (.consoleIOError .conIn svc.vector (s.pc - 1))) := by
  simp [State.consoleRead, h]

theorem consoleRead_wait {svc : ReadService} {k : Byte → State → State} {s : State} (h : s.conIn = []) :
    s.consoleRead svc k = s.setEs (.running (.waitInput svc)) := by
  simp [State.consoleRead, h]

/-- What a read can do: it takes a byte, it raises ConsoleIOError, or it waits. -/
theorem consoleRead_cases (svc : ReadService) (k : Byte → State → State) (s : State) :
    (∃ b rest, s.conIn = .byte b :: rest ∧ s.consoleRead svc k = k b s.answered) ∨
      (∃ rest, s.conIn = .ioError :: rest ∧ s.consoleRead svc k =
        s.answered.setEs (.faulted (.consoleIOError .conIn svc.vector (s.pc - 1)))) ∨
      (s.conIn = [] ∧ s.consoleRead svc k = s.setEs (.running (.waitInput svc))) := by
  cases h : s.conIn with
  | nil => exact .inr (.inr ⟨rfl, consoleRead_wait h⟩)
  | cons a rest =>
    cases a with
    | byte b => exact .inl ⟨b, rest, rfl, consoleRead_byte h⟩
    | ioError => exact .inr (.inl ⟨rest, rfl, consoleRead_ioError h⟩)

/-! ### Scanning -/

/-- The `k`-th word from `a + 1` on is the `k + 1`-st from `a` on; addresses wrap (R51). -/
theorem addr_succ (a : Word) (k : Nat) : a + 1 + BitVec.ofNat 16 k = a + BitVec.ofNat 16 (k + 1) := by
  have h1 : (1 : Word).toNat = 1 := rfl
  apply BitVec.eq_of_toNat_eq
  simp only [BitVec.toNat_add, BitVec.toNat_ofNat, h1]
  omega

/-- A scan whose `n`-th word is the first zero writes the bytes of the `n` words before it and stops. -/
theorem scanWords_found (bytesOf : Word → List Byte) (m : Memory) :
    ∀ (n fuel : Nat) (a : Word), n < fuel → (∀ k < n, Memory.read m (a + BitVec.ofNat 16 k) ≠ 0) →
      Memory.read m (a + BitVec.ofNat 16 n) = 0 →
      scanWords bytesOf m fuel a =
        ((List.range n).flatMap fun k => bytesOf (Memory.read m (a + BitVec.ofNat 16 k)), true)
  | 0, fuel + 1, a, _, _, hz => by
    have hz' : Memory.read m a = 0 := by simpa using hz
    simp [scanWords, hz']
  | n + 1, fuel + 1, a, hf, hnz, hz => by
    have h0 : Memory.read m a ≠ 0 := by simpa using hnz 0 (Nat.zero_lt_succ n)
    have shift := addr_succ a
    have ih := scanWords_found bytesOf m n fuel (a + 1) (Nat.lt_of_succ_lt_succ hf)
      (fun k hk => by rw [shift]; exact hnz (k + 1) (Nat.succ_lt_succ hk)) (by rw [shift]; exact hz)
    simp only [scanWords, h0, if_false, ih, shift, List.range_succ_eq_map, List.flatMap_cons, List.flatMap_map]
    simp

/-- A scan that meets no zero word in `n` words writes the bytes of all of them and does not stop. -/
theorem scanWords_endless (bytesOf : Word → List Byte) (m : Memory) :
    ∀ (n : Nat) (a : Word), (∀ k < n, Memory.read m (a + BitVec.ofNat 16 k) ≠ 0) →
      scanWords bytesOf m n a =
        ((List.range n).flatMap fun k => bytesOf (Memory.read m (a + BitVec.ofNat 16 k)), false)
  | 0, _, _ => rfl
  | n + 1, a, hnz => by
    have h0 : Memory.read m a ≠ 0 := by simpa using hnz 0 (Nat.zero_lt_succ n)
    have shift := addr_succ a
    have ih := scanWords_endless bytesOf m n (a + 1)
      (fun k hk => by rw [shift]; exact hnz (k + 1) (Nat.succ_lt_succ hk))
    simp only [scanWords, h0, if_false, ih, shift, List.range_succ_eq_map, List.flatMap_cons, List.flatMap_map]
    simp

/-- A scan over `n` words does not stop exactly when none of them is zero. -/
theorem scanWords_stops_iff (bytesOf : Word → List Byte) (m : Memory) (n : Nat) (a : Word) :
    (scanWords bytesOf m n a).2 = false ↔ ∀ k < n, Memory.read m (a + BitVec.ofNat 16 k) ≠ 0 := by
  constructor
  · intro h
    by_contra hc
    push Not at hc
    have hex : ∃ k, k < n ∧ Memory.read m (a + BitVec.ofNat 16 k) = 0 := hc
    classical
    have hk := Nat.find_spec hex
    have hmin := fun j (hj : j < Nat.find hex) => Nat.find_min hex hj
    have := scanWords_found bytesOf m (Nat.find hex) n a hk.1
      (fun j hj e => hmin j hj ⟨Nat.lt_trans hj hk.1, e⟩) hk.2
    rw [this] at h
    cases h
  · intro h
    rw [scanWords_endless bytesOf m n a h]

/-- What a pass of a scan can do: it stops at a zero word, it meets none in all of memory, or a write fails. -/
theorem scanBody_cases (svc : ScanService) (bytesOf : Word → List Byte) (s : State) :
    (∃ bs, (∃ a, s.memRead a = 0) ∧ scanBody svc bytesOf s = s.wrote bs) ∨
      (∃ bs, (∀ a, s.memRead a ≠ 0) ∧ scanBody svc bytesOf s = (s.wrote bs).setEs (.running (.scanning svc))) ∨
      (∃ bs, scanBody svc bytesOf s =
        (s.wrote bs).setEs (.faulted (.consoleIOError .conOut svc.vector (s.pc - 1)))) := by
  unfold scanBody
  rcases consoleWrite_cases svc.vector (scanWords bytesOf s.mem 65536 (s.reg 0)).1
    (fun t => if (scanWords bytesOf s.mem 65536 (s.reg 0)).2 then t else t.setEs (.running (.scanning svc))) s with h | ⟨n, h⟩
  · cases hstop : (scanWords bytesOf s.mem 65536 (s.reg 0)).2 with
    | true =>
      refine .inl ⟨_, ?_, by simpa only [hstop, if_true] using h⟩
      by_contra hnz
      rw [(scanWords_stops_iff bytesOf s.mem 65536 (s.reg 0)).mpr fun k _ e => hnz ⟨_, e⟩] at hstop
      cases hstop
    | false =>
      refine .inr (.inl ⟨_, fun a => ?_, by simpa only [hstop, Bool.false_eq_true, if_false] using h⟩)
      have hall := (scanWords_stops_iff bytesOf s.mem 65536 (s.reg 0)).mp hstop (a - s.reg 0).toNat (a - s.reg 0).isLt
      rw [BitVec.ofNat_toNat, BitVec.setWidth_eq, BitVec.add_comm, BitVec.sub_add_cancel] at hall
      exact hall
  · exact .inr (.inr ⟨_, h⟩)

end Sys2Proof.Machine
end

