-- ==== Sys2Proof/Laws/Encoding.lean ====
section
/-! SUPPORT. Reading a field out of an encoded word gives the field that was put there, for every format of R87. -/

namespace Sys2Proof

theorem regBits_toFin (r : Reg) : (regBits r).toFin = r := rfl

/-- A field above the low part of an append is a field of the high part. -/
theorem extract_append_high {n m : Nat} (x : BitVec n) (y : BitVec m) (k len : Nat) :
    (x ++ y).extractLsb' (m + k) len = x.extractLsb' k len := by
  apply BitVec.eq_of_getLsbD_eq
  intro i hi
  have h1 : ¬ m + k + i < m := by omega
  have h2 : m + k + i - m = k + i := by omega
  simp only [BitVec.getLsbD_extractLsb', BitVec.getLsbD_append, h1, h2]
  simp

/-- A field within the low part of an append is a field of the low part. -/
theorem extract_append_low {n m : Nat} (x : BitVec n) (y : BitVec m) (k len : Nat) (h : k + len ≤ m) :
    (x ++ y).extractLsb' k len = y.extractLsb' k len := by
  apply BitVec.eq_of_getLsbD_eq
  intro i hi
  have h1 : k + i < m := by omega
  simp only [BitVec.getLsbD_extractLsb', BitVec.getLsbD_append, h1]
  simp

theorem extract_whole {n : Nat} (x : BitVec n) : x.extractLsb' 0 n = x := by
  apply BitVec.eq_of_getLsbD_eq
  intro i hi
  simp [hi]

section Pc9
variable (op : BitVec 4) (f : BitVec 3) (off : BitVec 9)

/-- The op field of formats BR and PC9. -/
theorem op_of_pc9 : fieldOp (op ++ f ++ off) = op :=
  (extract_append_high (op ++ f) off 3 4).trans ((extract_append_high op f 0 4).trans (extract_whole op))

theorem bits11to9_of_pc9 : BitVec.extractLsb' 9 3 (op ++ f ++ off : Word) = f :=
  (extract_append_high (op ++ f) off 0 3).trans ((extract_append_low op f 0 3 (by decide)).trans (extract_whole f))

theorem offset_of_pc9 : fieldPCoffset9 (op ++ f ++ off) = off :=
  (extract_append_low (op ++ f) off 0 9 (by decide)).trans (extract_whole off)

end Pc9

section Base6
variable (op : BitVec 4) (r b : BitVec 3) (off : BitVec 6)

/-- The op field of format BASE6. -/
theorem op_of_base6 : fieldOp (op ++ r ++ b ++ off) = op :=
  (extract_append_high (op ++ r ++ b) off 6 4).trans
    ((extract_append_high (op ++ r) b 3 4).trans ((extract_append_high op r 0 4).trans (extract_whole op)))

theorem bits11to9_of_base6 : BitVec.extractLsb' 9 3 (op ++ r ++ b ++ off : Word) = r :=
  (extract_append_high (op ++ r ++ b) off 3 3).trans
    ((extract_append_high (op ++ r) b 0 3).trans ((extract_append_low op r 0 3 (by decide)).trans (extract_whole r)))

theorem bits8to6_of_base6 : BitVec.extractLsb' 6 3 (op ++ r ++ b ++ off : Word) = b :=
  (extract_append_high (op ++ r ++ b) off 0 3).trans
    ((extract_append_low (op ++ r) b 0 3 (by decide)).trans (extract_whole b))

theorem offset_of_base6 : fieldOffset6 (op ++ r ++ b ++ off) = off :=
  (extract_append_low (op ++ r ++ b) off 0 6 (by decide)).trans (extract_whole off)

end Base6

section Imm5
variable (op : BitVec 4) (r b : BitVec 3) (mode : BitVec 1) (imm : BitVec 5)

/-- The op field of format OPI. -/
theorem op_of_imm5 : fieldOp (op ++ r ++ b ++ mode ++ imm) = op :=
  (extract_append_high (op ++ r ++ b ++ mode) imm 7 4).trans
    ((extract_append_high (op ++ r ++ b) mode 6 4).trans
      ((extract_append_high (op ++ r) b 3 4).trans ((extract_append_high op r 0 4).trans (extract_whole op))))

theorem bits11to9_of_imm5 : BitVec.extractLsb' 9 3 (op ++ r ++ b ++ mode ++ imm : Word) = r :=
  (extract_append_high (op ++ r ++ b ++ mode) imm 4 3).trans
    ((extract_append_high (op ++ r ++ b) mode 3 3).trans
      ((extract_append_high (op ++ r) b 0 3).trans
        ((extract_append_low op r 0 3 (by decide)).trans (extract_whole r))))

theorem bits8to6_of_imm5 : BitVec.extractLsb' 6 3 (op ++ r ++ b ++ mode ++ imm : Word) = b :=
  (extract_append_high (op ++ r ++ b ++ mode) imm 1 3).trans
    ((extract_append_high (op ++ r ++ b) mode 0 3).trans
      ((extract_append_low (op ++ r) b 0 3 (by decide)).trans (extract_whole b)))

theorem mode_of_imm5 : fieldMode (op ++ r ++ b ++ mode ++ imm) = mode.getLsbD 0 := by
  have h : BitVec.extractLsb' 5 1 (op ++ r ++ b ++ mode ++ imm : Word) = mode :=
    (extract_append_high (op ++ r ++ b ++ mode) imm 0 1).trans
      ((extract_append_low (op ++ r ++ b) mode 0 1 (by decide)).trans (extract_whole mode))
  have hbit := BitVec.getLsbD_extractLsb' 5 1 (op ++ r ++ b ++ mode ++ imm : Word) 0
  rw [h] at hbit
  exact hbit.symm

theorem imm_of_imm5 : fieldImm5 (op ++ r ++ b ++ mode ++ imm) = imm :=
  (extract_append_low (op ++ r ++ b ++ mode) imm 0 5 (by decide)).trans (extract_whole imm)

end Imm5

section Jsr
variable (op : BitVec 4) (long : BitVec 1) (off : BitVec 11)

/-- The op field of format JSR. -/
theorem op_of_jsr : fieldOp (op ++ long ++ off) = op :=
  (extract_append_high (op ++ long) off 1 4).trans ((extract_append_high op long 0 4).trans (extract_whole op))

theorem long_of_jsr : fieldLong (op ++ long ++ off) = long.getLsbD 0 := by
  have h : BitVec.extractLsb' 11 1 (op ++ long ++ off : Word) = long :=
    (extract_append_high (op ++ long) off 0 1).trans
      ((extract_append_low op long 0 1 (by decide)).trans (extract_whole long))
  have hbit := BitVec.getLsbD_extractLsb' 11 1 (op ++ long ++ off : Word) 0
  rw [h] at hbit
  exact hbit.symm

theorem offset_of_jsr : fieldPCoffset11 (op ++ long ++ off) = off :=
  (extract_append_low (op ++ long) off 0 11 (by decide)).trans (extract_whole off)

end Jsr

/-! ### A word is its fields -/

/-- Two neighbouring fields of a word, appended, are one field. -/
theorem append_fields (w : Word) (lo m n : Nat) :
    w.extractLsb' (lo + m) n ++ w.extractLsb' lo m = w.extractLsb' lo (n + m) := by
  apply BitVec.eq_of_getLsbD_eq
  intro i hi
  simp only [BitVec.getLsbD_append, BitVec.getLsbD_extractLsb']
  by_cases h : i < m
  · simp [h, hi]
  · have h1 : lo + m + (i - m) = lo + i := by omega
    have h2 : i - m < n := by omega
    simp [h, hi, h1, h2]

theorem word_of_pc9 (w : Word) : fieldOp w ++ w.extractLsb' 9 3 ++ fieldPCoffset9 w = w := by
  have h1 : fieldOp w ++ w.extractLsb' 9 3 = w.extractLsb' 9 7 := append_fields w 9 3 4
  have h2 : w.extractLsb' 9 7 ++ w.extractLsb' 0 9 = w.extractLsb' 0 16 := append_fields w 0 9 7
  rw [h1]
  exact h2.trans (extract_whole w)

theorem word_of_base6 (w : Word) :
    fieldOp w ++ w.extractLsb' 9 3 ++ w.extractLsb' 6 3 ++ fieldOffset6 w = w := by
  have h1 : fieldOp w ++ w.extractLsb' 9 3 = w.extractLsb' 9 7 := append_fields w 9 3 4
  have h2 : w.extractLsb' 9 7 ++ w.extractLsb' 6 3 = w.extractLsb' 6 10 := append_fields w 6 3 7
  have h3 : w.extractLsb' 6 10 ++ w.extractLsb' 0 6 = w.extractLsb' 0 16 := append_fields w 0 6 10
  rw [h1, h2]
  exact h3.trans (extract_whole w)

theorem word_of_imm5 (w : Word) :
    fieldOp w ++ w.extractLsb' 9 3 ++ w.extractLsb' 6 3 ++ w.extractLsb' 5 1 ++ fieldImm5 w = w := by
  have h1 : fieldOp w ++ w.extractLsb' 9 3 = w.extractLsb' 9 7 := append_fields w 9 3 4
  have h2 : w.extractLsb' 9 7 ++ w.extractLsb' 6 3 = w.extractLsb' 6 10 := append_fields w 6 3 7
  have h3 : w.extractLsb' 6 10 ++ w.extractLsb' 5 1 = w.extractLsb' 5 11 := append_fields w 5 1 10
  have h4 : w.extractLsb' 5 11 ++ w.extractLsb' 0 5 = w.extractLsb' 0 16 := append_fields w 0 5 11
  rw [h1, h2, h3]
  exact h4.trans (extract_whole w)

theorem word_of_jsr (w : Word) : fieldOp w ++ w.extractLsb' 11 1 ++ fieldPCoffset11 w = w := by
  have h1 : fieldOp w ++ w.extractLsb' 11 1 = w.extractLsb' 11 5 := append_fields w 11 1 4
  have h2 : w.extractLsb' 11 5 ++ w.extractLsb' 0 11 = w.extractLsb' 0 16 := append_fields w 0 11 5
  rw [h1]
  exact h2.trans (extract_whole w)

/-- A field of a masked word is the masked field. -/
theorem extract_and (w m : Word) (lo len : Nat) :
    (w &&& m).extractLsb' lo len = w.extractLsb' lo len &&& m.extractLsb' lo len :=
  BitVec.extractLsb'_and

/-- The opcode of a word whose masked value is known, for a mask that keeps the opcode. -/
theorem op_of_masked {w m v : Word} (h : w &&& m = v) (hm : fieldOp m = 0b1111#4) : fieldOp w = fieldOp v := by
  have h2 := congrArg fieldOp h
  have h3 : fieldOp (w &&& m) = fieldOp w &&& fieldOp m := extract_and ..
  have h4 : fieldOp w &&& 0b1111#4 = fieldOp w := by generalize fieldOp w = x; revert x; decide
  rw [h3, hm, h4] at h2
  exact h2

end Sys2Proof
end

