-- ==== Sys2Proof/Laws/Memory.lean ====
section
/-! SUPPORT. The laws of the memory: a write is read back, changes no other address, and keeps the canonical form; two
memories in canonical form that read alike are the same list. -/

namespace Sys2Proof.Machine

@[simp] theorem Memory.read_nil (a : Word) : Memory.read [] a = Memory.unlisted := rfl

/-- Every address a memory in canonical form lists beyond its first cell is above the first. -/
theorem Memory.wf_cons {k : Nat} {v : Word} {rest : Memory} :
    Memory.wf ((k, v) :: rest) = true ↔
      k < 65536 ∧ v ≠ Memory.unlisted ∧ (∀ c ∈ rest, k < c.1) ∧ Memory.wf rest = true := by
  simp [Memory.wf, and_assoc]

/-- An address below every listed one is unlisted. -/
theorem Memory.read_of_lt {m : Memory} {a : Word} (h : ∀ c ∈ m, a.toNat < c.1) :
    Memory.read m a = Memory.unlisted := by
  induction m with
  | nil => rfl
  | cons c rest ih =>
    obtain ⟨k, v⟩ := c
    have hk : a.toNat < k := h (k, v) List.mem_cons_self
    have hne : k ≠ a.toNat := by omega
    simp only [Memory.read, hne, if_false]
    exact ih fun c hc => h c (List.mem_cons_of_mem _ hc)

/-- A cell of the memory after a write is a cell of before or the one written. -/
theorem Memory.mem_write {m : Memory} {a v : Word} {c : Nat × Word} (h : c ∈ Memory.write m a v) :
    c ∈ m ∨ c.1 = a.toNat := by
  induction m with
  | nil =>
    simp only [Memory.write] at h
    split at h <;> simp_all
  | cons d rest ih =>
    obtain ⟨k, u⟩ := d
    simp only [Memory.write] at h
    split at h
    · rcases List.mem_cons.mp h with rfl | h
      · exact .inl List.mem_cons_self
      · exact (ih h).imp (List.mem_cons_of_mem _) id
    · split at h
      · split at h
        · exact .inl (List.mem_cons_of_mem _ h)
        · exact .inl h
      · rcases List.mem_cons.mp h with rfl | h
        · exact .inr rfl
        · split at h
          · exact .inl (List.mem_cons_of_mem _ h)
          · exact .inl h

/-- A write keeps the canonical form. -/
theorem Memory.write_wf {m : Memory} (h : m.wf = true) (a v : Word) : (Memory.write m a v).wf = true := by
  induction m with
  | nil =>
    simp only [Memory.write]
    split
    · rfl
    · rename_i hv
      exact Memory.wf_cons.mpr ⟨a.isLt, hv, by simp, rfl⟩
  | cons d rest ih =>
    obtain ⟨k, u⟩ := d
    obtain ⟨hk, hu, hlt, hrest⟩ := Memory.wf_cons.mp h
    simp only [Memory.write]
    split
    · rename_i hka
      refine Memory.wf_cons.mpr ⟨hk, hu, fun c hc => ?_, ih hrest⟩
      rcases Memory.mem_write hc with hc | hc
      · exact hlt c hc
      · omega
    · rename_i hka
      have habove : ∀ c ∈ (if k = a.toNat then rest else (k, u) :: rest), a.toNat < c.1 := by
        intro c hc
        split at hc
        · have := hlt c hc; omega
        · rcases List.mem_cons.mp hc with rfl | hc
          · simp only; omega
          · have := hlt c hc; omega
      have hwf : Memory.wf (if k = a.toNat then rest else (k, u) :: rest) = true := by
        split
        · exact hrest
        · exact h
      split
      · exact hwf
      · rename_i hv
        exact Memory.wf_cons.mpr ⟨a.isLt, hv, habove, hwf⟩

/-- The word written is read back. -/
theorem Memory.read_write_self {m : Memory} (h : m.wf = true) (a v : Word) :
    Memory.read (Memory.write m a v) a = v := by
  induction m with
  | nil =>
    simp only [Memory.write]
    split
    · rename_i hv; rw [hv]; rfl
    · simp [Memory.read]
  | cons d rest ih =>
    obtain ⟨k, u⟩ := d
    obtain ⟨hk, hu, hlt, hrest⟩ := Memory.wf_cons.mp h
    simp only [Memory.write]
    split
    · rename_i hka
      have hne : k ≠ a.toNat := by omega
      simp only [Memory.read, hne, if_false]
      exact ih hrest
    · rename_i hka
      split
      · rename_i hv
        rw [hv]
        apply Memory.read_of_lt
        intro c hc
        split at hc
        · have := hlt c hc; omega
        · rcases List.mem_cons.mp hc with rfl | hc
          · simp only; omega
          · have := hlt c hc; omega
      · simp [Memory.read]

/-- A write changes no other address. -/
theorem Memory.read_write_ne {m : Memory} {a b : Word} (v : Word) (hab : b ≠ a) :
    Memory.read (Memory.write m a v) b = Memory.read m b := by
  have hn : a.toNat ≠ b.toNat := fun e => hab (BitVec.eq_of_toNat_eq e.symm)
  induction m with
  | nil =>
    simp only [Memory.write]
    split <;> simp [Memory.read, hn]
  | cons d rest ih =>
    obtain ⟨k, u⟩ := d
    simp only [Memory.write]
    split
    · simp only [Memory.read, ih]
    · by_cases hka : k = a.toNat
      · split <;> simp [Memory.read, hka, hn]
      · split <;> simp [Memory.read, hn]

/-- A read after a write (R52, R53). -/
theorem Memory.read_write {m : Memory} (h : m.wf = true) (a b v : Word) :
    Memory.read (Memory.write m a v) b = if b = a then v else Memory.read m b := by
  by_cases hab : b = a
  · subst hab; simp [Memory.read_write_self h]
  · simp [hab, Memory.read_write_ne v hab]

/-- The head of a memory in canonical form is read at its own address. -/
theorem Memory.read_head {k : Nat} {v : Word} {rest : Memory} (hk : k < 65536) :
    Memory.read ((k, v) :: rest) (BitVec.ofNat 16 k) = v := by
  have : k = (BitVec.ofNat 16 k).toNat := by simp [Nat.mod_eq_of_lt hk]
  simp only [Memory.read]
  rw [if_pos this]

theorem memRead_memWrite (s : State) (h : s.mem.wf = true) (a b v : Word) :
    (s.memWrite a v).memRead b = if b = a then v else s.memRead b :=
  Memory.read_write h a b v

theorem memRead_memWrite_ne (s : State) {a b : Word} (v : Word) (h : b ≠ a) :
    (s.memWrite a v).memRead b = s.memRead b :=
  Memory.read_write_ne v h

end Sys2Proof.Machine
end

