-- ==== Sys2Proof/Laws/Exec.lean ====
section
/-! SUPPORT. What an instruction can do, said once: the shapes of the states `exec` answers, and of the states a service
leaves. The statements over all instructions are derived from these. -/

namespace Sys2Proof.Machine

open Sys2Proof.Safety

/-! ### The console's part of a state -/

/-- `s` with another console: answers `ci` left, port `co`, and `bs` written after what was. -/
def State.withConsole (ci : List InAnswer) (co : OutPort) (bs : List Byte) (s : State) : State :=
  { s with conIn := ci, conOut := co, output := s.output ++ bs }

section
variable (s : State) (ci ci' : List InAnswer) (co co' : OutPort) (bs bs' : List Byte)

@[simp] theorem withConsole_regs : (s.withConsole ci co bs).regs = s.regs := rfl
@[simp] theorem withConsole_pc : (s.withConsole ci co bs).pc = s.pc := rfl
@[simp] theorem withConsole_cond : (s.withConsole ci co bs).cond = s.cond := rfl
@[simp] theorem withConsole_es : (s.withConsole ci co bs).es = s.es := rfl
@[simp] theorem withConsole_ir : (s.withConsole ci co bs).ir = s.ir := rfl
@[simp] theorem withConsole_mem : (s.withConsole ci co bs).mem = s.mem := rfl
@[simp] theorem withConsole_cfg : (s.withConsole ci co bs).cfg = s.cfg := rfl
@[simp] theorem withConsole_conIn : (s.withConsole ci co bs).conIn = ci := rfl
@[simp] theorem withConsole_conOut : (s.withConsole ci co bs).conOut = co := rfl
@[simp] theorem withConsole_output : (s.withConsole ci co bs).output = s.output ++ bs := rfl
@[simp] theorem reg_withConsole (r : Reg) : (s.withConsole ci co bs).reg r = s.reg r := rfl
@[simp] theorem memRead_withConsole (a : Word) : (s.withConsole ci co bs).memRead a = s.memRead a := rfl

theorem wrote_eq : s.wrote bs = s.withConsole s.conIn (s.conOut.after bs.length) bs := rfl

theorem answered_eq : s.answered = s.withConsole s.conIn.tail s.conOut [] := by
  simp [State.answered, State.withConsole]

theorem withConsole_withConsole :
    (s.withConsole ci co bs).withConsole ci' co' bs' = s.withConsole ci' co' (bs ++ bs') := by
  simp [State.withConsole, List.append_assoc]

end

/-! ### Flags and words -/

/-- `flagOf` is the flag of its value (R28). -/
theorem flagOf_flagIs (v : Word) : FlagIs v (flagOf v) where
  zro h := if_pos h
  neg h := by
    have hv : v ≠ 0 := fun e => by subst e; simp at h
    rw [flagOf, if_neg hv, if_pos h]
  pos h0 h := by
    rw [flagOf, if_neg h0, if_neg (by rw [h]; exact Bool.false_ne_true)]

/-- `flagOf` always sets exactly one flag (R27). -/
theorem flagOf_oneFlag (v : Word) : OneFlag (flagOf v) := by
  unfold flagOf OneFlag
  split
  · exact .inr (.inl rfl)
  · split
    · exact .inr (.inr rfl)
    · exact .inl rfl

/-! ### The bytes of a scan -/

theorem lowByte_eq (w : Word) : lowByte w = BitVec.ofNat 8 w.toNat := by
  apply BitVec.eq_of_toNat_eq
  simp [lowByte]

theorem highByte_eq (w : Word) : highByte w = BitVec.ofNat 8 (w.toNat / 256) := by
  apply BitVec.eq_of_toNat_eq
  simp [highByte, Nat.shiftRight_eq_div_pow]

/-- What PUTS writes for a word, in the statements' terms. -/
theorem putsBytes_eq (w : Word) : putsBytes w = scannedBytes .puts w := by
  rw [putsBytes, scannedBytes, lowByte_eq]

/-- What PUTSP writes for a word, in the statements' terms. -/
theorem putspBytes_eq (w : Word) : putspBytes w = scannedBytes .putsp w := by
  have high_zero : BitVec.ofNat 8 (w.toNat / 256) = 0 ↔ w.toNat < 256 := by
    have hw := w.isLt
    rw [← BitVec.toNat_inj]
    simp only [BitVec.toNat_ofNat, BitVec.ofNat_eq_ofNat]
    omega
  simp only [putspBytes, scannedBytes, packedBytes, lowByte_eq, highByte_eq, high_zero]

/-- A pass over a memory without a zero word writes `passBytes` and does not stop. -/
theorem scanWords_pass {svc : ScanService} {bytesOf : Word → List Byte} {s : State}
    (hb : ∀ w, bytesOf w = scannedBytes svc w) (hnz : ∀ a, s.memRead a ≠ 0) :
    scanWords bytesOf s.mem 65536 (s.reg 0) = (passBytes svc s, false) := by
  have e : bytesOf = scannedBytes svc := funext hb
  subst e
  exact scanWords_endless (scannedBytes svc) s.mem 65536 (s.reg 0) fun k _ => hnz _

/-- A pass depends on R0 and memory alone. -/
theorem passBytes_congr {svc : ScanService} {s t : State} (h0 : t.reg 0 = s.reg 0) (hm : t.mem = s.mem) :
    passBytes svc t = passBytes svc s := by
  unfold passBytes State.memRead
  rw [h0, hm]

/-! ### What a service can do -/

/-- The states the dispatch of TRAP on vector `v` leaves from `s`, the state after `x[7] <- pc`. -/
inductive TrapShape (v : Byte) (s t : State) : Prop where
  /-- A service that writes has completed. -/
  | wrote (ci : List InAnswer) (co : OutPort) (bs : List Byte) (hv : recognisedVector v = true)
      (hr : ¬(v = 0x20 ∨ v = 0x23)) (ht : t = s.withConsole ci co bs)
  /-- GETC or IN has completed. -/
  | read (ci : List InAnswer) (co : OutPort) (bs : List Byte) (b : Byte) (hv : v = 0x20 ∨ v = 0x23)
      (ht : t = (s.withConsole ci co bs).setRegCc 0 (zext16 b))
  /-- GETC or IN waits. -/
  | waits (svc : ReadService) (ci : List InAnswer) (co : OutPort) (bs : List Byte) (hv : v = svc.vector)
      (hin : s.conIn = []) (ht : t = (s.withConsole ci co bs).setEs (.running (.waitInput svc)))
  /-- PUTS or PUTSP has met no zero word. -/
  | scans (svc : ScanService) (ci : List InAnswer) (co : OutPort) (bs : List Byte) (hv : v = svc.vector)
      (hnz : ∀ a, s.memRead a ≠ 0) (ht : t = (s.withConsole ci co bs).setEs (.running (.scanning svc)))
  /-- HALT has completed. -/
  | halts (ci : List InAnswer) (co : OutPort) (bs : List Byte) (hv : v = 0x25)
      (ht : t = (s.withConsole ci co bs).setEs .halted)
  /-- A console transaction has failed. -/
  | fails (port : ConsolePort) (ci : List InAnswer) (co : OutPort) (bs : List Byte)
      (hv : recognisedVector v = true) (hin : port = .conIn → v = 0x20 ∨ v = 0x23) (hout : port = .conOut → v ≠ 0x20)
      (ht : t = (s.withConsole ci co bs).setEs (.faulted (.consoleIOError port v (s.pc - 1))))
  /-- The vector is none of the six. -/
  | invalid (hv : recognisedVector v = false) (ht : t = s.setEs (.faulted (.invalidTrapVector v (s.pc - 1))))

theorem getcBody_shape (s : State) : TrapShape 0x20 s (getcBody s) := by
  unfold getcBody
  rcases consoleRead_cases .getc (fun b t => t.setRegCc 0 (zext16 b)) s with ⟨b, rest, _, h⟩ | ⟨rest, _, h⟩ | ⟨hin, h⟩
  · exact .read _ _ _ b (.inl rfl) (by rw [h, answered_eq])
  · exact .fails .conIn _ _ _ rfl (fun _ => .inl rfl) (fun e => by cases e) (by rw [h, answered_eq]; rfl)
  · exact .waits .getc s.conIn s.conOut [] rfl hin (by rw [h]; simp [State.withConsole])

theorem outBody_shape (s : State) : TrapShape 0x21 s (outBody s) := by
  unfold outBody
  rcases consoleWrite_cases 0x21 [lowByte (s.reg 0)] id s with h | ⟨n, h⟩
  · exact .wrote _ _ _ rfl (by decide) (by rw [h, id, wrote_eq])
  · exact .fails .conOut _ _ _ rfl (fun e => by cases e) (fun _ => by decide) (by rw [h, wrote_eq])

theorem inCharRead_shape (s : State) : TrapShape 0x23 s (inCharRead s) := by
  unfold inCharRead
  rcases consoleRead_cases .inChar (fun b t => t.consoleWrite 0x23 [b] (State.setRegCc 0 (zext16 b))) s with
    ⟨b, rest, _, h⟩ | ⟨rest, _, h⟩ | ⟨hin, h⟩
  · rw [h]
    rcases consoleWrite_cases 0x23 [b] (State.setRegCc 0 (zext16 b)) s.answered with hw | ⟨n, hw⟩
    · exact .read _ _ _ b (.inr rfl) (by rw [hw, wrote_eq, answered_eq, withConsole_withConsole])
    · refine .fails .conOut ?_ ?_ ?_ rfl (fun e => by cases e) (fun _ => by decide) ?_
      rotate_left 3
      · rw [hw, wrote_eq, answered_eq, withConsole_withConsole]; rfl
  · exact .fails .conIn _ _ _ rfl (fun _ => .inr rfl) (fun e => by cases e) (by rw [h, answered_eq]; rfl)
  · exact .waits .inChar s.conIn s.conOut [] rfl hin (by rw [h]; simp [State.withConsole])

/-- A service after a write has a shape from the state before the write. -/
theorem TrapShape.after_write {v : Byte} {s t : State} {co : OutPort} {bs : List Byte}
    (h : TrapShape v (s.withConsole s.conIn co bs) t) (hv : recognisedVector v = true) : TrapShape v s t := by
  cases h with
  | wrote ci co' bs' hv hr ht => exact .wrote ci co' (bs ++ bs') hv hr (by rw [ht, withConsole_withConsole])
  | read ci co' bs' b hv ht => exact .read ci co' (bs ++ bs') b hv (by rw [ht, withConsole_withConsole])
  | waits svc ci co' bs' hv hin ht => exact .waits svc ci co' (bs ++ bs') hv hin (by rw [ht, withConsole_withConsole])
  | scans svc ci co' bs' hv hnz ht => exact .scans svc ci co' (bs ++ bs') hv hnz (by rw [ht, withConsole_withConsole])
  | halts ci co' bs' hv ht => exact .halts ci co' (bs ++ bs') hv (by rw [ht, withConsole_withConsole])
  | fails port ci co' bs' hv hin hout ht =>
    exact .fails port ci co' (bs ++ bs') hv hin hout (by rw [ht, withConsole_withConsole]; rfl)
  | invalid hv' _ => rw [hv] at hv'; cases hv'

theorem inCharBody_shape (s : State) : TrapShape 0x23 s (inCharBody s) := by
  unfold inCharBody
  rcases consoleWrite_cases 0x23 s.cfg.inPrompt inCharRead s with h | ⟨n, h⟩
  · rw [h, wrote_eq]
    exact (inCharRead_shape _).after_write rfl
  · exact .fails .conOut _ _ _ rfl (fun e => by cases e) (fun _ => by decide) (by rw [h, wrote_eq])

theorem scanBody_shape (svc : ScanService) (bytesOf : Word → List Byte) (s : State) :
    TrapShape svc.vector s (scanBody svc bytesOf s) := by
  have hv : recognisedVector svc.vector = true := by cases svc <;> rfl
  rcases scanBody_cases svc bytesOf s with ⟨bs, _, h⟩ | ⟨bs, hnz, h⟩ | ⟨bs, h⟩
  · exact .wrote _ _ _ hv (by cases svc <;> decide) (by rw [h, wrote_eq])
  · exact .scans svc _ _ _ rfl hnz (by rw [h, wrote_eq])
  · exact .fails .conOut _ _ _ hv (fun e => by cases e) (fun _ => by cases svc <;> decide) (by rw [h, wrote_eq])

theorem haltBody_shape (s : State) : TrapShape 0x25 s (haltBody s) := by
  unfold haltBody
  rcases consoleWrite_cases 0x25 s.cfg.haltBanner State.halt s with h | ⟨n, h⟩
  · exact .halts _ _ _ rfl (by rw [h, wrote_eq]; rfl)
  · exact .fails .conOut _ _ _ rfl (fun e => by cases e) (fun _ => by decide) (by rw [h, wrote_eq])

theorem trapDispatch_shape (v : Byte) (s : State) : TrapShape v s (trapDispatch v s) := by
  unfold trapDispatch
  split
  · rename_i h; subst h; exact getcBody_shape s
  split
  · rename_i h; subst h; exact outBody_shape s
  split
  · rename_i h; subst h; exact scanBody_shape .puts putsBytes s
  split
  · rename_i h; subst h; exact inCharBody_shape s
  split
  · rename_i h; subst h; exact scanBody_shape .putsp putspBytes s
  split
  · rename_i h; subst h; exact haltBody_shape s
  · rename_i h0 h1 h2 h3 h4 h5
    refine .invalid ?_ rfl
    simp only [recognisedVector, Bool.or_eq_false_iff, beq_eq_false_iff_ne]
    exact ⟨⟨⟨⟨⟨h0, h1⟩, h2⟩, h3⟩, h4⟩, h5⟩

/-! ### What every service leaves -/

theorem TrapShape.pc_eq {v : Byte} {s t : State} (h : TrapShape v s t) : t.pc = s.pc := by
  cases h <;> simp_all

theorem TrapShape.mem_eq {v : Byte} {s t : State} (h : TrapShape v s t) : t.mem = s.mem := by
  cases h <;> simp_all

theorem TrapShape.ir_eq {v : Byte} {s t : State} (h : TrapShape v s t) : t.ir = s.ir := by
  cases h <;> simp_all

theorem TrapShape.cfg_eq {v : Byte} {s t : State} (h : TrapShape v s t) : t.cfg = s.cfg := by
  cases h <;> simp_all

/-- What was written stays written. -/
theorem TrapShape.output_prefix {v : Byte} {s t : State} (h : TrapShape v s t) : s.output <+: t.output := by
  cases h <;> simp_all

/-- Only GETC and IN write a register, and only R0. -/
theorem TrapShape.reg_eq {v : Byte} {s t : State} (h : TrapShape v s t) (q : Reg)
    (hq : q = 0 → ¬(v = 0x20 ∨ v = 0x23)) : t.reg q = s.reg q := by
  cases h with
  | read ci co bs b hv ht =>
    have h0 : q ≠ 0 := fun e => hq e hv
    subst ht
    simp [reg_setReg_ne _ _ h0]
  | _ => simp_all

/-- From a state that is ready, GETC and IN set COND from R0 exactly when they complete; the other services leave it. -/
theorem TrapShape.cond_of_ready {v : Byte} {s t : State} (h : TrapShape v s t) (hes : s.es = .running .ready) :
    ((v = 0x20 ∨ v = 0x23) → t.es = .running .ready → FlagIs (t.reg 0) t.cond) ∧
      (t.es ≠ .running .ready → t.cond = s.cond) := by
  cases h with
  | read ci co bs b hv ht =>
    subst ht
    exact ⟨fun _ _ => by simpa using flagOf_flagIs (zext16 b), fun hne => absurd (by simpa using hes) hne⟩
  | _ => simp_all

/-- COND is left, or GETC or IN has set it from R0. -/
theorem TrapShape.cond_cases {v : Byte} {s t : State} (h : TrapShape v s t) :
    t.cond = s.cond ∨ ((v = 0x20 ∨ v = 0x23) ∧ FlagIs (t.reg 0) t.cond) := by
  cases h with
  | read ci co bs b hv ht =>
    subst ht
    exact .inr ⟨hv, by simpa using flagOf_flagIs (zext16 b)⟩
  | _ => simp_all

/-! ### What an instruction can do -/

/-- The states an instruction leaves. -/
inductive ExecShape (i : Instr) (s t : State) : Prop where
  /-- A register and its flag are written. -/
  | writes (dr : Reg) (v : Word) (hw : writtenRegs i = [dr]) (hf : flagReg i = some dr) (hn : trapVector i = none)
      (hs : stopsEngine i = false) (ht : t = s.setRegCc dr v)
  /-- A word is stored. -/
  | stores (a v : Word) (hi : storesWord i = true) (hf : flagReg i = none) (hn : trapVector i = none)
      (hs : stopsEngine i = false) (ht : t = s.memWrite a v)
  /-- The pc is written, or left by a branch that is not taken. -/
  | jumps (target : Word) (hi : transfersControl i = true) (hf : flagReg i = none) (hn : trapVector i = none)
      (hs : stopsEngine i = false) (ht : t = s.setPc target)
  /-- The return address is saved and the pc is written. -/
  | calls (target : Word) (hi : transfersControl i = true) (hw : writtenRegs i = [7]) (hf : flagReg i = none)
      (hn : trapVector i = none) (hs : stopsEngine i = false) (ht : t = s.link.setPc target)
  /-- RTI or RES. -/
  | halts (hf : flagReg i = none) (hn : trapVector i = none) (hs : stopsEngine i = true) (ht : t = s.halt)
  /-- A TRAP. -/
  | traps (v : Byte) (hv : trapVector i = some v) (hw : writtenRegs i = if v = 0x20 ∨ v = 0x23 then [7, 0] else [7])
      (hf : flagReg i = if v = 0x20 ∨ v = 0x23 then some 0 else none) (hs : stopsEngine i = (v == 0x25))
      (hst : storesWord i = false) (hc : transfersControl i = false) (ht : TrapShape v s.trapEntry t)

theorem exec_shape {i : Instr} {s t : State} (h : exec i s = .next t) : ExecShape i s t := by
  cases i with
  | addReg dr a b => cases h; exact .writes dr _ rfl rfl rfl rfl rfl
  | addImm dr a b => cases h; exact .writes dr _ rfl rfl rfl rfl rfl
  | andReg dr a b => cases h; exact .writes dr _ rfl rfl rfl rfl rfl
  | andImm dr a b => cases h; exact .writes dr _ rfl rfl rfl rfl rfl
  | not dr a => cases h; exact .writes dr _ rfl rfl rfl rfl rfl
  | br nzp off =>
    cases h
    split
    · exact .jumps _ rfl rfl rfl rfl rfl
    · exact .jumps s.pc rfl rfl rfl rfl rfl
  | ret => cases h; exact .jumps _ rfl rfl rfl rfl rfl
  | jmp b => cases h; exact .jumps _ rfl rfl rfl rfl rfl
  | jsr off => cases h; exact .calls _ rfl rfl rfl rfl rfl rfl
  | jsrr b => cases h; exact .calls _ rfl rfl rfl rfl rfl rfl
  | ld dr off => cases h; exact .writes dr _ rfl rfl rfl rfl rfl
  | ldi dr off => cases h; exact .writes dr _ rfl rfl rfl rfl rfl
  | ldr dr b off => cases h; exact .writes dr _ rfl rfl rfl rfl rfl
  | lea dr off => cases h; exact .writes dr _ rfl rfl rfl rfl rfl
  | st r off => cases h; exact .stores _ _ rfl rfl rfl rfl rfl
  | sti r off => cases h; exact .stores _ _ rfl rfl rfl rfl rfl
  | str r b off => cases h; exact .stores _ _ rfl rfl rfl rfl rfl
  | getc => cases h; exact .traps 0x20 rfl rfl rfl rfl rfl rfl (getcBody_shape _)
  | out => cases h; exact .traps 0x21 rfl rfl rfl rfl rfl rfl (outBody_shape _)
  | puts => cases h; exact .traps 0x22 rfl rfl rfl rfl rfl rfl (scanBody_shape .puts putsBytes _)
  | inChar => cases h; exact .traps 0x23 rfl rfl rfl rfl rfl rfl (inCharBody_shape _)
  | putsp => cases h; exact .traps 0x24 rfl rfl rfl rfl rfl rfl (scanBody_shape .putsp putspBytes _)
  | halt => cases h; exact .traps 0x25 rfl rfl rfl rfl rfl rfl (haltBody_shape _)
  | trap v => cases h; exact .traps v rfl rfl rfl rfl rfl rfl (trapDispatch_shape v _)
  | rti => cases h; exact .halts rfl rfl rfl rfl
  | res => cases h; exact .halts rfl rfl rfl rfl

/-- What going on with a read can do. -/
theorem resumeRead_shape (svc : ReadService) (s : State) : TrapShape svc.vector s.trapReturn (resumeRead svc s) := by
  cases svc with
  | getc => exact getcBody_shape _
  | inChar => exact inCharRead_shape _

/-- What going on with a scan can do. -/
theorem resumeScan_shape (svc : ScanService) (s : State) : TrapShape svc.vector s.trapReturn (resumeScan svc s) := by
  cases svc with
  | puts => exact scanBody_shape .puts putsBytes _
  | putsp => exact scanBody_shape .putsp putspBytes _

end Sys2Proof.Machine
end

