-- ==== Sys2Proof/Laws/PerInstr.lean ====
section
/-! SUPPORT. Facts of every instruction as syntax, one lemma per constructor. Family `EncodedRow`: the word of an
instruction lies in that instruction's row of spec/opcode_table.json (30_encoding.md R96). -/

namespace Sys2Proof.Laws.EncodedRow

/-- The word of `i` has the fixed bits of `i`'s row. -/
def Statement (i : Instr) : Prop := encode i &&& i.rowMask = i.rowMatch

/-- A row that fixes the opcode. -/
theorem row_of_op {w : Word} {op : BitVec 4} (h : fieldOp w = op) : w &&& 0xF000 = op ++ 0#12 := by
  subst h
  apply BitVec.eq_of_getLsbD_eq
  intro i hi
  simp only [fieldOp, BitVec.getLsbD_append, BitVec.getLsbD_and, BitVec.getLsbD_extractLsb']
  interval_cases i <;> simp

/-- A row that fixes the opcode and the mode bit (R89). -/
theorem row_of_op_mode {w : Word} {op : BitVec 4} (h : fieldOp w = op) (hm : fieldMode w = true) :
    w &&& 0xF020 = op ++ 0x020#12 := by
  subst h
  apply BitVec.eq_of_getLsbD_eq
  intro i hi
  unfold fieldMode at hm
  simp only [fieldOp, BitVec.getLsbD_append, BitVec.getLsbD_and, BitVec.getLsbD_extractLsb']
  interval_cases i <;> simp [hm]

/-- A row that fixes the opcode and the long flag (R89). -/
theorem row_of_op_long {w : Word} {op : BitVec 4} (h : fieldOp w = op) (hl : fieldLong w = true) :
    w &&& 0xF800 = op ++ 0x800#12 := by
  subst h
  apply BitVec.eq_of_getLsbD_eq
  intro i hi
  unfold fieldLong at hl
  simp only [fieldOp, BitVec.getLsbD_append, BitVec.getLsbD_and, BitVec.getLsbD_extractLsb']
  interval_cases i <;> simp [hl]

theorem addReg (dr sr1 sr2 : Reg) : Statement (.addReg dr sr1 sr2) := by revert dr sr1 sr2; unfold Statement; decide
theorem addImm (dr sr1 : Reg) (imm5 : BitVec 5) : Statement (.addImm dr sr1 imm5) :=
  row_of_op_mode (op_of_imm5 _ _ _ _ _) (mode_of_imm5 _ _ _ _ _)
theorem andReg (dr sr1 sr2 : Reg) : Statement (.andReg dr sr1 sr2) := by revert dr sr1 sr2; unfold Statement; decide
theorem andImm (dr sr1 : Reg) (imm5 : BitVec 5) : Statement (.andImm dr sr1 imm5) :=
  row_of_op_mode (op_of_imm5 _ _ _ _ _) (mode_of_imm5 _ _ _ _ _)
theorem not (dr sr1 : Reg) : Statement (.not dr sr1) := row_of_op (op_of_base6 _ _ _ _)
theorem br (nzp : BitVec 3) (off : BitVec 9) : Statement (.br nzp off) := row_of_op (op_of_pc9 _ _ _)
theorem ret : Statement .ret := by unfold Statement; decide
theorem jmp (baseR : Reg) : Statement (.jmp baseR) := by revert baseR; unfold Statement; decide
theorem jsr (off : BitVec 11) : Statement (.jsr off) := row_of_op_long (op_of_jsr _ _ _) (long_of_jsr _ _ _)
theorem jsrr (baseR : Reg) : Statement (.jsrr baseR) := by revert baseR; unfold Statement; decide
theorem ld (dr : Reg) (off : BitVec 9) : Statement (.ld dr off) := row_of_op (op_of_pc9 _ _ _)
theorem ldi (dr : Reg) (off : BitVec 9) : Statement (.ldi dr off) := row_of_op (op_of_pc9 _ _ _)
theorem ldr (dr baseR : Reg) (off : BitVec 6) : Statement (.ldr dr baseR off) := row_of_op (op_of_base6 _ _ _ _)
theorem lea (dr : Reg) (off : BitVec 9) : Statement (.lea dr off) := row_of_op (op_of_pc9 _ _ _)
theorem st (sr : Reg) (off : BitVec 9) : Statement (.st sr off) := row_of_op (op_of_pc9 _ _ _)
theorem sti (sr : Reg) (off : BitVec 9) : Statement (.sti sr off) := row_of_op (op_of_pc9 _ _ _)
theorem str (sr baseR : Reg) (off : BitVec 6) : Statement (.str sr baseR off) := row_of_op (op_of_base6 _ _ _ _)
theorem getc : Statement .getc := by unfold Statement; decide
theorem out : Statement .out := by unfold Statement; decide
theorem puts : Statement .puts := by unfold Statement; decide
theorem inChar : Statement .inChar := by unfold Statement; decide
theorem putsp : Statement .putsp := by unfold Statement; decide
theorem halt : Statement .halt := by unfold Statement; decide
theorem trap (v : Byte) : Statement (.trap v) := by revert v; unfold Statement; decide
theorem rti : Statement .rti := by unfold Statement; decide
theorem res : Statement .res := by unfold Statement; decide

end Sys2Proof.Laws.EncodedRow
end

