-- ==== Sys2Proof/Laws/Step.lean ====
section
/-! SUPPORT. What a step is in each engine state, and what it can do. -/

namespace Sys2Proof.Machine

theorem step_ready {s : State} (h : s.es = .running .ready) : step s = exec (decode s.fetch.ir) s.fetch := by
  unfold step; rw [h]

theorem step_waiting {s : State} {svc : ReadService} (h : s.es = .running (.waitInput svc)) :
    step s = .next (resumeRead svc s) := by
  unfold step; rw [h]

theorem step_scanning {s : State} {svc : ScanService} (h : s.es = .running (.scanning svc)) :
    step s = .next (resumeScan svc s) := by
  unfold step; rw [h]

theorem step_created {s : State} (h : s.es = .created) : step s = .next s := by
  unfold step; rw [h]

/-- What a step can do: it runs the instruction at pc, it goes on with a service, or the machine is at rest. -/
theorem step_cases {s t : State} (h : step s = .next t) :
    (s.es = .running .ready ∧ exec (decode (s.memRead s.pc)) s.fetch = .next t) ∨
      (∃ svc, s.es = .running (.waitInput svc) ∧ t = resumeRead svc s) ∨
      (∃ svc, s.es = .running (.scanning svc) ∧ t = resumeScan svc s) ∨
      ((s.es = .created ∨ s.es = .halted ∨ ∃ f, s.es = .faulted f) ∧ t = s) := by
  unfold step at h
  cases hes : s.es with
  | created => rw [hes] at h; cases h; exact .inr (.inr (.inr ⟨.inl rfl, rfl⟩))
  | halted => rw [hes] at h; cases h; exact .inr (.inr (.inr ⟨.inr (.inl rfl), rfl⟩))
  | faulted f => rw [hes] at h; cases h; exact .inr (.inr (.inr ⟨.inr (.inr ⟨f, rfl⟩), rfl⟩))
  | running act =>
    cases act with
    | ready => rw [hes] at h; exact .inl ⟨rfl, h⟩
    | waitInput svc => rw [hes] at h; cases h; exact .inr (.inl ⟨svc, rfl, rfl⟩)
    | scanning svc => rw [hes] at h; cases h; exact .inr (.inr (.inl ⟨svc, rfl, rfl⟩))

end Sys2Proof.Machine
end

