-- ==== Sys2Proof/Tests/Slice0.lean ====
section
/-! SUPPORT. The model's own tests. Expected values come from spec/: the encodings of 30_encoding.md (R84 to R90), the
vectors of 95_test_vectors.md (L1, L2), each named by its row. Then, for every statement that has hypotheses, a concrete
state and operands that meet them all. -/

namespace Sys2Proof.Tests

open Sys2Proof.Machine Sys2Proof.Safety

/-! ### Well-formedness: one ill-formed term for each check -/

theorem test_wellFormed_refuses_jmp_r7 : (Instr.jmp 7).wellFormed = false := by decide
theorem test_wellFormed_refuses_trap_getc : (Instr.trap 0x20).wellFormed = false := by decide
theorem test_wellFormed_refuses_trap_out : (Instr.trap 0x21).wellFormed = false := by decide
theorem test_wellFormed_refuses_trap_puts : (Instr.trap 0x22).wellFormed = false := by decide
theorem test_wellFormed_refuses_trap_in : (Instr.trap 0x23).wellFormed = false := by decide
theorem test_wellFormed_refuses_trap_putsp : (Instr.trap 0x24).wellFormed = false := by decide
theorem test_wellFormed_refuses_trap_halt : (Instr.trap 0x25).wellFormed = false := by decide
theorem test_wellFormed_accepts_neighbours :
    (Instr.jmp 6).wellFormed = true ∧ (Instr.trap 0x1F).wellFormed = true ∧ (Instr.trap 0x26).wellFormed = true := by decide

/-! ### Decoding: one word a constructor, written bit by bit from the encodings of R84 and R87 -/

theorem test_decode_addReg : decode 0b0001_101_011_0_00_110 = .addReg 5 3 6 := by decide
theorem test_decode_addImm : decode 0b0001_101_011_1_10010 = .addImm 5 3 0b10010 := by decide
theorem test_decode_andReg : decode 0b0101_001_110_0_00_011 = .andReg 1 6 3 := by decide
theorem test_decode_andImm : decode 0b0101_001_110_1_01101 = .andImm 1 6 0b01101 := by decide
theorem test_decode_not : decode 0b1001_100_010_111111 = .not 4 2 := by decide
theorem test_decode_br : decode 0b0000_100_100000011 = .br 0b100 0b100000011 := by decide
theorem test_decode_ret : decode 0b1100_000_111_000000 = .ret := by decide
theorem test_decode_jmp : decode 0b1100_000_101_000000 = .jmp 5 := by decide
theorem test_decode_jsr : decode 0b0100_1_10000000101 = .jsr 0b10000000101 := by decide
theorem test_decode_jsrr : decode 0b0100_0_00_011_000000 = .jsrr 3 := by decide
theorem test_decode_ld : decode 0b0010_110_000010001 = .ld 6 0b000010001 := by decide
theorem test_decode_ldi : decode 0b1010_011_100000001 = .ldi 3 0b100000001 := by decide
theorem test_decode_ldr : decode 0b0110_101_010_100110 = .ldr 5 2 0b100110 := by decide
theorem test_decode_lea : decode 0b1110_010_011111111 = .lea 2 0b011111111 := by decide
theorem test_decode_st : decode 0b0011_111_110000000 = .st 7 0b110000000 := by decide
theorem test_decode_sti : decode 0b1011_001_000000111 = .sti 1 0b000000111 := by decide
theorem test_decode_str : decode 0b0111_110_001_011001 = .str 6 1 0b011001 := by decide
theorem test_decode_getc : decode 0b1111_0000_00100000 = .getc := by decide
theorem test_decode_out : decode 0b1111_0000_00100001 = .out := by decide
theorem test_decode_puts : decode 0b1111_0000_00100010 = .puts := by decide
theorem test_decode_in : decode 0b1111_0000_00100011 = .inChar := by decide
theorem test_decode_putsp : decode 0b1111_0000_00100100 = .putsp := by decide
theorem test_decode_halt : decode 0b1111_0000_00100101 = .halt := by decide
theorem test_decode_trap : decode 0b1111_0000_10011001 = .trap 0x99 := by decide
theorem test_decode_rti : decode 0b1000_000000000000 = .rti := by decide
theorem test_decode_res : decode 0b1101_000000000000 = .res := by decide

/-- The canonical words of R90: unused bits are 0, and NOT's are 1. -/
theorem test_encode_canonical :
    encode (.addReg 0 1 2) = 0x1042 ∧ encode (.not 3 2) = 0x96BF ∧ encode .ret = 0xC1C0 ∧ encode (.jsr 3) = 0x4803 ∧
    encode (.br 0b111 0x1FF) = 0x0FFF ∧ encode (.str 3 1 1) = 0x7641 ∧ encode .halt = 0xF025 := by decide

theorem test_tableWord : decodeTableWord 16 0xC180 = some (.jmp 6) ∧ decodeTableWord 16 0x10000 = none := by decide

/-! ### One step on a small state -/

/-- A running machine whose next instruction is the word `w` at address `a`. -/
def at_ (a w : Word) (regs : List (Reg × Word)) (words : List (Word × Word)) (cond : BitVec 3) : State :=
  let s := { State.reset with
    es := .running .ready, pc := a, cond := cond, cfg := ⟨[0x3E, 0x20], [0x2E], true⟩
    mem := words.foldl (fun m x => Memory.write m x.1 x.2) (Memory.write [] a w) }
  regs.foldl (fun t x => t.setReg x.1 x.2) s

/-- What `view` sees of the state one step on. -/
def seen {α : Type} (s : State) (view : State → α) : Option α :=
  match step s with
  | .next t => some (view t)
  | _ => none

/-- L2.1 row 1. -/
theorem test_addReg : seen (at_ 0x3000 0x1042 [(1, 3), (2, 4)] [] condZro)
    (fun t => (t.reg 0, t.cond, t.pc)) = some (0x0007, condPos, 0x3001) := by decide
/-- L2.1: ADD R1, R1, R1 with unused bits clear, a source that is the destination. -/
theorem test_addReg_double : seen (at_ 0x3000 0x1241 [(1, 0x4000)] [] condZro)
    (fun t => (t.reg 1, t.cond)) = some (0x8000, condNeg) := by decide
/-- L2.1: the immediate -16 and a wrap to zero. -/
theorem test_addImm_wraps : seen (at_ 0x3000 0x1030 [(0, 0x0010)] [] condPos)
    (fun t => (t.reg 0, t.cond)) = some (0x0000, condZro) := by decide
/-- L1.8. -/
theorem test_addImm_doc : seen (at_ 0x3000 0x1025 [] [] condZro)
    (fun t => (t.reg 0, t.cond, t.pc)) = some (0x0005, condPos, 0x3001) := by decide
/-- L2.1. -/
theorem test_andReg : seen (at_ 0x3000 0x5642 [(1, 0xF0F0), (2, 0x0FF0)] [] condZro)
    (fun t => (t.reg 3, t.cond)) = some (0x00F0, condPos) := by decide
/-- L2.1: the immediate is sign-extended. -/
theorem test_andImm_sign : seen (at_ 0x3000 0x5030 [(0, 0x8005)] [] condZro)
    (fun t => (t.reg 0, t.cond)) = some (0x8000, condNeg) := by decide
/-- L2.1. -/
theorem test_not : seen (at_ 0x3000 0x96BF [(2, 0x1234)] [] condZro)
    (fun t => (t.reg 3, t.reg 2, t.cond)) = some (0xEDCB, 0x1234, condNeg) := by decide
/-- L2.2: taken, with two wraps. -/
theorem test_br_taken : seen (at_ 0xFFFF 0x0201 [] [] condPos) (fun t => (t.pc, t.cond)) = some (0x0001, condPos) := by decide
/-- L2.2: not taken. -/
theorem test_br_not_taken : seen (at_ 0x3000 0x0810 [] [] condZro) (fun t => t.pc) = some 0x3001 := by decide
/-- L2.2. -/
theorem test_jmp : seen (at_ 0x3000 0xC080 [(2, 0x4000)] [] condNeg)
    (fun t => (t.pc, t.reg 7, t.cond)) = some (0x4000, 0, condNeg) := by decide
/-- L2.2. -/
theorem test_ret : seen (at_ 0x3000 0xC1C0 [(7, 0x1234)] [] condZro) (fun t => (t.pc, t.reg 7)) = some (0x1234, 0x1234) := by
  decide
/-- L2.2: the most negative offset. -/
theorem test_jsr : seen (at_ 0x3000 0x4C00 [] [] condZro) (fun t => (t.reg 7, t.pc)) = some (0x3001, 0x2C01) := by decide
/-- L2.2: JSRR R7 with JSRR_LINK_FIRST = true. -/
theorem test_jsrr_r7_link_first : seen (at_ 0x3000 0x41C0 [(7, 0x5000)] [] condZro)
    (fun t => (t.reg 7, t.pc)) = some (0x3001, 0x3001) := by decide
/-- L2.2: JSRR R7 with JSRR_LINK_FIRST = false. -/
theorem test_jsrr_r7_base_first :
    seen { at_ 0x3000 0x41C0 [(7, 0x5000)] [] condZro with cfg := ⟨[], [], false⟩ }
      (fun t => (t.reg 7, t.pc)) = some (0x3001, 0x5000) := by decide
/-- L2.3: the address wraps. -/
theorem test_ld_wraps : seen (at_ 0xFFFE 0x2005 [] [(0x0004, 0x8001)] condZro)
    (fun t => (t.reg 0, t.cond, t.pc)) = some (0x8001, condNeg, 0xFFFF) := by decide
/-- L1.4. -/
theorem test_ldi : seen (at_ 0x3004 0xA804 [] [(0x3009, 0x3008), (0x3008, 0xEDCB)] condZro)
    (fun t => (t.reg 4, t.cond, t.pc)) = some (0xEDCB, condNeg, 0x3005) := by decide
/-- L2.3: the most negative offset. -/
theorem test_ldr_negative : seen (at_ 0x3000 0x6060 [(1, 0)] [(0xFFE0, 1)] condZro)
    (fun t => (t.reg 0, t.cond, t.reg 1)) = some (0x0001, condPos, 0) := by decide
/-- L2.3: the destination is the base. -/
theorem test_ldr_same_register : seen (at_ 0x3000 0x6240 [(1, 0x4000)] [(0x4000, 0)] condPos)
    (fun t => (t.reg 1, t.cond)) = some (0x0000, condZro) := by decide
/-- L2.3: the flags come from the address. -/
theorem test_lea_negative : seen (at_ 0x7FFF 0xE0FF [] [] condZro)
    (fun t => (t.reg 0, t.cond, t.pc)) = some (0x80FF, condNeg, 0x8000) := by decide
/-- L2.3. -/
theorem test_st : seen (at_ 0x3003 0x3004 [(0, 0x0042)] [] condNeg)
    (fun t => (t.memRead 0x3008, t.memRead 0x3007, t.cond)) = some (0x0042, 0, condNeg) := by decide
/-- L2.3: the pointer word is overwritten. -/
theorem test_sti_own_pointer : seen (at_ 0x3000 0xB000 [(0, 0xABCD)] [(0x3001, 0x3001)] condZro)
    (fun t => t.memRead 0x3001) = some 0xABCD := by decide
/-- L2.3: the address wraps below zero. -/
theorem test_str_wraps : seen (at_ 0x3000 0x707F [(0, 0x0009), (1, 0)] [] condZro)
    (fun t => (t.memRead 0xFFFF, t.reg 1)) = some (0x0009, 0) := by decide
/-- L2.4: zero-extension, POS. -/
theorem test_getc : seen { at_ 0x3000 0xF020 [] [] condZro with conIn := [.byte 0x80, .byte 0x41] }
    (fun t => (t.reg 0, t.cond, t.reg 7, t.conIn)) = some (0x0080, condPos, 0x3001, [.byte 0x41]) := by decide
/-- L2.4: io_error. -/
theorem test_getc_fails : seen { at_ 0x3000 0xF020 [(0, 9)] [] condNeg with conIn := [.ioError] }
    (fun t => (t.es, t.reg 0, t.cond, t.reg 7)) =
      some (.faulted (.consoleIOError .conIn 0x20 0x3000), 9, condNeg, 0x3001) := by decide
/-- L2.4. -/
theorem test_out : seen (at_ 0x3000 0xF021 [(0, 0x1242)] [] condZro)
    (fun t => (t.output, t.reg 0, t.reg 7)) = some ([0x42], 0x1242, 0x3001) := by decide
/-- L2.4: the high byte is ignored. -/
theorem test_puts : seen (at_ 0x3000 0xF022 [(0, 0x3001)] [(0x3001, 0x1F48), (0x3002, 0)] condNeg)
    (fun t => (t.output, t.reg 7, t.cond)) = some ([0x48], 0x3001, condNeg) := by decide
/-- R188: the scan wraps, and a failing write leaves what was written. -/
theorem test_puts_fails : seen { at_ 0x3000 0xF022 [(0, 0xFFFF)] [(0xFFFF, 0x48), (0, 0x69)] condZro with
      conOut := .failingAfter 1 }
    (fun t => (t.output, t.es)) = some ([0x48], .faulted (.consoleIOError .conOut 0x22 0x3000)) := by decide
/-- L2.4. -/
theorem test_in : seen { at_ 0x3000 0xF023 [] [] condZro with conIn := [.byte 0x79] }
    (fun t => (t.output, t.reg 0, t.cond, t.reg 7)) = some ([0x3E, 0x20, 0x79], 0x0079, condPos, 0x3001) := by decide
/-- R33, R38: the prompt is out before the answer is waited for. -/
theorem test_in_waits : seen (at_ 0x3000 0xF023 [] [] condZro)
    (fun t => (t.output, t.es, t.reg 0)) = some ([0x3E, 0x20], .running (.waitInput .inChar), 0) := by decide
/-- L2.4. -/
theorem test_putsp : seen (at_ 0x3000 0xF024 [(0, 0x4000)] [(0x4000, 0x6948), (0x4001, 0x0021)] condZro)
    (fun t => (t.output, t.reg 7)) = some ([0x48, 0x69, 0x21], 0x3001) := by decide
/-- L2.4: a low byte of 0 is written. -/
theorem test_putsp_zero_low : seen (at_ 0x3000 0xF024 [(0, 0x4000)] [(0x4000, 0x4100)] condZro)
    (fun t => t.output) = some [0x00, 0x41] := by decide
/-- L2.4, with bits 11 to 8 set. -/
theorem test_halt : seen (at_ 0x3000 0xFF25 [] [] condZro)
    (fun t => (t.es, t.output, t.reg 7, t.pc)) = some (.halted, [0x2E], 0x3001, 0x3001) := by decide
/-- L2.4: the vector 0x26, one past the last. -/
theorem test_trap_invalid : seen (at_ 0xFFFF 0xF0FF [] [] condZro)
    (fun t => (t.es, t.reg 7, t.pc, t.output)) =
      some (.faulted (.invalidTrapVector 0xFF 0xFFFF), 0x0000, 0x0000, []) := by decide
/-- L2.5. -/
theorem test_rti : seen (at_ 0x3000 0x8FFF [] [] condPos)
    (fun t => (t.es, t.pc, t.output, t.reg 7, t.cond)) = some (.halted, 0x3001, [], 0, condPos) := by decide
/-- L2.5. -/
theorem test_res : seen (at_ 0x4000 0xDFFF [] [] condPos)
    (fun t => (t.es, t.pc, t.output, t.reg 7)) = some (.halted, 0x4001, [], 0) := by decide

/-! ### Loading and start (L2.6) -/

/-- Which words of a failed image stay: none, in these tests. -/
def noneLanded : Nat → Bool := fun _ => false

/-- L2.6 row 2: an image that wraps. -/
theorem test_load_wraps :
    ((State.reset.load (.stream [0xFF, 0xFF, 0x11, 0x11, 0x22, 0x22]) noneLanded).1.memRead 0xFFFF,
      (State.reset.load (.stream [0xFF, 0xFF, 0x11, 0x11, 0x22, 0x22]) noneLanded).1.memRead 0x0000) =
      (0x1111, 0x2222) := by decide
/-- L2.6 rows 3 to 5. -/
theorem test_load_answers :
    (State.reset.load (.stream [0x30, 0x00]) noneLanded).2 = .ok ∧
    (State.reset.load (.stream []) noneLanded).2 = .loadError ∧
    (State.reset.load (.stream [0x30, 0x00, 0x12]) noneLanded).2 = .loadError := by decide
/-- L2.6 row 6: the last image wins. -/
theorem test_boot_last_wins :
    let s := State.boot [(.stream [0x30, 0x00, 0x11, 0x11, 0x22, 0x22], noneLanded), (.stream [0x30, 0x01, 0x33, 0x33], noneLanded)]
      State.reset
    (s.memRead 0x3000, s.memRead 0x3001, s.pc, s.es) = (0x1111, 0x3333, 0x3000, .running .ready) := by decide
/-- The word of `withFetchWord` is the first instruction after reset (log 2). -/
theorem test_withFetchWord : seen (State.reset.withFetchWord 16 0x1025)
    (fun t => (t.reg 0, t.cond, t.pc, t.ir)) = some (0x0005, condPos, 0x3001, 0x1025) := by decide

/-- R259: the host lets the next write fail, and after creation reset lets writes succeed again. -/
theorem test_answerOutput :
    let broken := ((at_ 0x3000 0xF021 [(0, 0x41)] [] condZro).answerOutput (.failingAfter 0))
    (seen broken fun t => (t.es, t.output)) = some (.faulted (.consoleIOError .conOut 0x21 0x3000), []) ∧
    (seen ((broken.creationReset.answerOutput .accepting).withFetchWord 16 0xF021) fun t => (t.es, t.output)) =
      some (.running .ready, [0]) := by decide
/-- R193, R182: the echo of a waiting IN fails; R0 and COND stay. -/
theorem test_waiting_echo_fails :
    let s := { at_ 0x3001 0 [(0, 0x1234)] [] condPos with
      es := .running (.waitInput .inChar), conIn := [.byte 0x79], conOut := .failingAfter 0 }
    (seen s fun t => (t.es, t.reg 0, t.cond)) =
      some (.faulted (.consoleIOError .conOut 0x23 0x3000), 0x1234, condPos) := by decide

/-! ### Witnesses: concrete states and operands that meet each statement's hypotheses -/

/-- A machine that has just started. -/
def started : State := State.reset.start

/-- The first `n` words of memory are 1. -/
def onesBelow (n : Nat) : Memory := (List.range n).map fun k => (k, 1)

/-- Every word of memory is 1. -/
def fullMemory : Memory := onesBelow 65536

/-- A running machine with no zero word in memory. -/
def full : State := { started with mem := fullMemory }

theorem read_mapped (f : Nat → Nat × Word) (hf : ∀ k, f k = (k, 1)) (a : Word) :
    ∀ l : List Nat, a.toNat ∈ l → Memory.read (l.map f) a = 1
  | [], h => by cases h
  | k :: rest, h => by
    simp only [List.map_cons, hf k, Memory.read]
    split
    · rfl
    · rename_i hk
      refine read_mapped f hf a rest ?_
      rcases List.mem_cons.mp h with e | h
      · exact absurd e.symm hk
      · exact h

theorem onesBelow_read (n : Nat) (a : Word) (h : a.toNat < n) : (onesBelow n).read a = 1 :=
  read_mapped (fun k => (k, 1)) (fun _ => rfl) a _ (List.mem_range.mpr h)

theorem fullMemory_read (a : Word) : fullMemory.read a = 1 := onesBelow_read _ a a.isLt

theorem full_has_no_zero_word (a : Word) : full.memRead a ≠ 0 := by
  have h : full.memRead a = fullMemory.read a := by simp only [full, State.memRead]
  rw [h, fullMemory_read]
  intro h
  cases h

/-- A pass of a scan writes at least one byte. -/
theorem passBytes_pos (svc : ScanService) (s : State) : 0 < (passBytes svc s).length := by
  rw [passBytes, List.range_succ_eq_map, List.flatMap_cons, List.length_append]
  refine Nat.lt_of_lt_of_le ?_ (Nat.le_add_right _ _)
  cases svc with
  | puts => exact Nat.zero_lt_one
  | putsp =>
    rw [scannedBytes, packedBytes]
    split <;> exact Nat.succ_pos _

/-- The invariant holds of a machine that has just started. -/
theorem started_inv : Inv started where
  memory := rfl
  created h := by cases h
  oneFlag _ := .inr (.inl rfl)
  waiting _ h := by cases h
  scanning _ h := by cases h
  halted h := by cases h
  faulted _ h := by cases h

/-- An ended machine: halted, and faulted. -/
def haltedState : State := { started with es := .halted }
def faultedState : State := { started with es := .faulted (.invalidTrapVector 0xFF 0xFFFF) }
def brokenConsole : State := { started with es := .faulted (.consoleIOError .conOut 0x25 0) }
/-- A machine in WAIT_INPUT. -/
def waitingState (svc : ReadService) (answers : List InAnswer) : State :=
  { started with es := .running (.waitInput svc), conIn := answers }

theorem witness_CreationResetValues : haltedState.ended = true ∧ faultedState.ended = true := by decide
theorem witness_StartBeginsTheRun : State.reset.es = .created ∧ started.es ≠ .created := by decide
/-- Both clauses, at the wrap: word 1 of an image at 0xFFFF goes to 0x0000, and 0x0001 is not touched. -/
theorem witness_LoadImageWritesInOrder :
    Memory.wf State.reset.mem = true ∧ State.reset.es = .created ∧
    ([0x1111, 0x2222] : List Word)[1]? = some 0x2222 ∧ (0xFFFF : Word) + BitVec.ofNat 16 1 = 0x0000 ∧
    (∀ j, j < 2 → 1 < j → (0xFFFF : Word) + BitVec.ofNat 16 j ≠ 0x0000) ∧
    (∀ j, j < 2 → (0xFFFF : Word) + BitVec.ofNat 16 j ≠ 0x0001) := by decide
theorem witness_ImageStreamIsBigEndian :
    ([0x30, 0x00, 0x12] : List Byte).length % 2 = 1 ∧ State.reset.es = .created ∧
    parseImage [0x30, 0x00, 0x12] = none ∧ parseImage [] = none ∧
    parseImage (ImageSource.unreadable [0x30, 0x00]).bytes = some (0x3000, []) := by decide
theorem witness_BootLoadsInOrderThenStarts :
    State.reset.es = .created ∧
    (∀ im ∈ [(([0x30, 0x00, 0x12, 0x34] : List Byte), (0x3000 : Word), ([0x1234] : List Word))],
      parseImage im.1 = some im.2) ∧
    (∀ bytes, ImageSource.stream [0x30] = .stream bytes → parseImage bytes = none) ∧
    ∀ bytes, ImageSource.unreadable [0x30, 0x00] = .stream bytes → parseImage bytes = none :=
  ⟨rfl, by decide, fun _ h => by cases h; decide, fun _ h => by cases h⟩
theorem witness_PortsFollowTheEngineState :
    started.es ≠ .created ∧ State.reset.es = .created ∧ started.es = .running .ready ∧ haltedState.es = .halted ∧
    faultedState.es = .faulted (.invalidTrapVector 0xFF 0xFFFF) ∧
    brokenConsole.es = .faulted (.consoleIOError .conOut 0x25 0) := by decide
/-- Operands at both ends of their fields. -/
theorem witness_DecodeEncodeRoundTrip :
    (Instr.jmp 6).wellFormed = true ∧ (Instr.trap 0xFF).wellFormed = true ∧ (Instr.trap 0x1F).wellFormed = true ∧
    (Instr.ld 7 0x1FF).wellFormed = true := by decide
theorem witness_UnusedBitsAreIgnored :
    (0x1058 : Word) &&& (decode 0x1058).usedBits = 0x1040 &&& (decode 0x1058).usedBits ∧
    (0xFF25 : Word) &&& (decode 0xFF25).usedBits = 0xF025 &&& (decode 0xFF25).usedBits := by decide
/-- One word for each of the three clauses: its own row, JMP's row, the generic TRAP row. -/
theorem witness_DecodeNamesTheMostSpecificRow :
    (0x1042 : Word) &&& (Instr.addReg 0 0 0).rowMask = (Instr.addReg 0 0 0).rowMatch ∧
    (0xC1C0 : Word) &&& (Instr.jmp 0).rowMask = (Instr.jmp 0).rowMatch ∧
    (0xF020 : Word) &&& (Instr.trap 0).rowMask = (Instr.trap 0).rowMatch := by decide
/-- L1.1: both clauses for each width. -/
theorem witness_FieldsAreSignExtended :
    (0x0F#5).getLsbD 4 = false ∧ (0x10#5).getLsbD 4 = true ∧ (0x1F#6).getLsbD 5 = false ∧ (0x20#6).getLsbD 5 = true ∧
    (0x0FF#9).getLsbD 8 = false ∧ (0x100#9).getLsbD 8 = true ∧ (0x3FF#11).getLsbD 10 = false ∧
    (0x400#11).getLsbD 10 = true := by decide
theorem test_sext_values :
    sext5 0x10 = 0xFFF0 ∧ sext5 0x0F = 0x000F ∧ sext6 0x20 = 0xFFE0 ∧ sext6 0x1F = 0x001F ∧ sext9 0x100 = 0xFF00 ∧
    sext9 0x0FF = 0x00FF ∧ sext11 0x400 = 0xFC00 ∧ sext11 0x3FF = 0x03FF := by decide
/-- L1.2: each clause of the flag of a value. -/
theorem test_setcc_values :
    flagOf 0x0000 = condZro ∧ flagOf 0x0001 = condPos ∧ flagOf 0x7FFF = condPos ∧ flagOf 0x8000 = condNeg ∧
    flagOf 0xFFFF = condNeg := by decide
theorem witness_MemoryWriteThenRead :
    Memory.wf (at_ 0x3000 0x1042 [] [(0xFFFF, 1)] condZro).mem = true ∧ (0x0000 : Word) ≠ 0xFFFF := by decide
theorem witness_MemoryFormIsCanonical :
    Memory.wf [(0, 1), (65535, 2)] = true ∧ Memory.wf (Memory.write [(0, 1)] 0xFFFF 2) = true ∧
    ∀ a, Memory.read [(0, 1), (65535, 2)] a = Memory.read (Memory.write [(0, 1)] 0xFFFF 2) a :=
  ⟨by decide, by decide, fun _ => rfl⟩
theorem witness_StepRunsTheDecodedInstruction : started.es = .running .ready := by decide
theorem witness_StepKeepsTheInvariant : ∃ t, Inv started ∧ step started = .next t := ⟨_, started_inv, rfl⟩
theorem witness_HostEventsKeepTheInvariant : Inv started := started_inv
theorem witness_EndedMachineStays :
    haltedState.es = .halted ∧ (∃ f, faultedState.es = .faulted f) ∧ State.reset.es = .created := ⟨rfl, ⟨_, rfl⟩, rfl⟩
/-- One state for each way out of RUNNING. -/
theorem witness_EngineStateTransitions :
    (∃ t, step (at_ 0 0x8000 [] [] condZro) = .next t ∧ t.es = .halted) ∧
    (∃ t, step (at_ 0 0xF000 [] [] condZro) = .next t ∧ t.es = .faulted (.invalidTrapVector 0 0)) ∧
    (∃ t, step (at_ 0 0xF020 [] [] condZro) = .next t ∧ t.es = .running (.waitInput .getc)) ∧
    (∃ t, step State.reset = .next t ∧ t.es = .created) ∧
    (∃ t, step (waitingState .getc [.byte 0]) = .next t ∧ t.es = .running .ready) ∧
    (∃ t, step (waitingState .inChar []) = .next t ∧ t.es = .running (.waitInput .inChar)) ∧
    ∃ t, step { full with es := .running (.scanning .puts) } = .next t :=
  ⟨⟨_, rfl, rfl⟩, ⟨_, rfl, rfl⟩, ⟨_, rfl, rfl⟩, ⟨_, rfl, rfl⟩, ⟨_, rfl, rfl⟩, ⟨_, rfl, rfl⟩, ⟨_, rfl⟩⟩
/-- The clause of EngineStateTransitions on an endless scan. -/
theorem witness_EngineStateTransitions_scan : (exec .puts full = .next (putsBody full.trapEntry)) ∧ ∀ a, full.memRead a ≠ 0 :=
  ⟨rfl, full_has_no_zero_word⟩
theorem witness_OnlyControlTransfersWritePc :
    started.es = .running .ready ∧ (0b101#3 &&& started.cond = 0 ∧ ∃ t, exec (.br 0b101 1) started = .next t) ∧
    transfersControl (.addReg 0 1 2) = false ∧ (∃ t, exec (.addReg 0 1 2) started = .next t) ∧
    (waitingState .getc []).es ≠ .running .ready ∧ (∃ t, step (waitingState .getc []) = .next t) ∧
    State.reset.es = .created :=
  ⟨rfl, ⟨rfl, _, rfl⟩, rfl, ⟨_, rfl⟩, by decide, ⟨_, rfl⟩, rfl⟩
theorem witness_OnlyDestinationsAreWritten :
    (∃ t, exec (.addReg 0 1 2) started = .next t ∧ (7 : Reg) ∉ writtenRegs (.addReg 0 1 2)) ∧
    (trapVector (.trap 0x99)).isSome = true ∧ (∃ t, exec (.trap 0x99) started = .next t) ∧
    (waitingState .getc []).es = .running (.waitInput .getc) ∧ (∃ t, step (waitingState .getc []) = .next t) ∧
    ({ full with es := .running (.scanning .puts) }).es = .running (.scanning .puts) :=
  ⟨⟨_, rfl, by decide⟩, rfl, ⟨_, rfl⟩, rfl, ⟨_, rfl⟩, rfl⟩
theorem witness_FlagsComeFromTheDestination :
    flagReg (.st 0 0) = none ∧ (∃ t, exec (.st 0 0) started = .next t) ∧
    flagReg (.lea 3 0) = some 3 ∧ trapVector (.lea 3 0) = none ∧ trapVector .getc = some 0x20 ∧
    trapVector (.trap 0x23) = some 0x23 ∧ flagReg .getc = some 0 ∧ started.es = .running .ready ∧
    (∃ t, exec .getc { started with conIn := [.byte 0] } = .next t ∧ t.es = .running .ready) ∧
    (∃ t, exec .getc started = .next t ∧ t.es ≠ .running .ready) ∧
    (∃ t, step (waitingState .inChar [.byte 0x80]) = .next t ∧ t.es = .running .ready) ∧
    (∃ t, step (waitingState .inChar [.ioError]) = .next t ∧ t.es ≠ .running .ready) ∧
    ∃ t, step { full with es := .running (.scanning .putsp) } = .next t :=
  ⟨rfl, ⟨_, rfl⟩, rfl, rfl, rfl, rfl, rfl, rfl, ⟨_, rfl, rfl⟩, ⟨_, rfl, by decide⟩, ⟨_, rfl, rfl⟩, ⟨_, rfl, by decide⟩,
    ⟨_, rfl⟩⟩
theorem witness_OnlyBranchesReadCond :
    (∀ nzp off, Instr.getc ≠ .br nzp off) ∧ ∃ t, exec .getc (waitingState .getc [.byte 1]) = .next t :=
  ⟨(fun _ _ h => by cases h), ⟨_, rfl⟩⟩
theorem witness_OnlyStoresWriteMemory :
    storesWord .puts = false ∧ (∃ t, exec .puts started = .next t) ∧
    (waitingState .getc []).es ≠ .running .ready ∧ ∃ t, step (waitingState .getc []) = .next t :=
  ⟨rfl, ⟨_, rfl⟩, by decide, ⟨_, rfl⟩⟩
theorem witness_FaultsComeOnlyFromTraps :
    started.es = .running .ready ∧
    (∃ t, exec (.trap 0x26) started = .next t ∧ t.es = .faulted (.invalidTrapVector 0x26 (started.pc - 1))) ∧
    ∃ t, exec .getc { started with conIn := [.ioError] } = .next t ∧
      t.es = .faulted (.consoleIOError .conIn 0x20 (started.pc - 1)) := ⟨rfl, ⟨_, rfl, rfl⟩, ⟨_, rfl, rfl⟩⟩
theorem witness_ConsoleOnlyByTraps :
    trapVector .rti = none ∧ (∃ t, exec .rti started = .next t) ∧ ∃ t, step started = .next t :=
  ⟨rfl, ⟨_, rfl⟩, ⟨_, rfl⟩⟩
/-- A selected flag that is COND's, one that is not, and no flag selected. -/
theorem witness_BranchFollowsTheFlags :
    OneFlag started.cond ∧ ((0b010#3).getLsbD 1 = true ∧ started.cond = condZro) ∧
    ¬(((0b101#3).getLsbD 2 = true ∧ started.cond = condNeg) ∨ ((0b101#3).getLsbD 1 = true ∧ started.cond = condZro) ∨
      ((0b101#3).getLsbD 0 = true ∧ started.cond = condPos)) := ⟨.inr (.inl rfl), by decide, by decide⟩
theorem witness_JsrrLinksAndJumps :
    (6 : Reg) ≠ 7 ∧ started.cfg.jsrrLinkFirst = true ∧
    ({ started with cfg := ⟨[], [], false⟩ }).cfg.jsrrLinkFirst = false := by decide
theorem witness_StoresWriteTheWord : Memory.wf started.mem = true := by decide
theorem witness_StoreIsSeenByTheNextFetch :
    Memory.wf (at_ 0xFFFF 0x3000 [(0, 0x8000)] [] condZro).mem = true ∧
    (at_ 0xFFFF 0x3000 [(0, 0x8000)] [] condZro).es = .running .ready ∧
    decode ((at_ 0xFFFF 0x3000 [(0, 0x8000)] [] condZro).memRead (at_ 0xFFFF 0x3000 [(0, 0x8000)] [] condZro).pc) =
      .st 0 0 ∧ BitVec.ofInt 16 ((0xFFFF + 1 : Word).toInt + (0#9).toInt) = 0 := by decide
/-- STI through a pointer to the next address, STR to it, and a store to the instruction's own address. -/
theorem witness_StoreIsSeenByTheNextFetch_forms :
    let sti := at_ 0x3000 0xB001 [] [(0x3002, 0x3001)] condZro
    let str := at_ 0x3000 0x707F [(1, 0x3002)] [] condZro
    let own := at_ 0x3000 0x31FF [] [] condZro
    (decode (sti.memRead sti.pc) = .sti 0 1 ∧
      sti.memRead (BitVec.ofInt 16 ((sti.pc + 1).toInt + (1#9).toInt)) = sti.pc + 1) ∧
    (decode (str.memRead str.pc) = .str 0 1 0x3F ∧
      BitVec.ofInt 16 ((str.reg 1).toInt + (0x3F#6).toInt) = str.pc + 1) ∧
    decode (own.memRead own.pc) = .st 0 0x1FF ∧
      BitVec.ofInt 16 ((own.pc + 1).toInt + (0x1FF#9).toInt) = own.pc := by decide
theorem witness_ZeroWordOnlyAdvancesPc : started.es = .running .ready ∧ started.memRead started.pc = 0 := by decide
theorem witness_UnrecognisedVectorFaults :
    recognisedVector 0x1F = false ∧ recognisedVector 0x26 = false ∧ recognisedVector 0x00 = false := by decide
theorem witness_GetcReadsOneByte : (waitingState .getc [.byte 0xFF]).conIn = [.byte 0xFF] := by decide
theorem witness_GetcWaitsOrFails :
    started.conIn = [] ∧ (waitingState .getc [.ioError]).conIn = [.ioError] := by decide
theorem witness_OutWritesTheLowByte :
    started.conOut.accepts 1 = true ∧ ({ started with conOut := .failingAfter 0 }).conOut = .failingAfter 0 := by decide
/-- A string of two words that wraps, its writes accepted, and failing at the second. -/
theorem witness_PutsWritesUpToTheZeroWord :
    let s := at_ 0x3000 0xF022 [(0, 0xFFFF)] [(0xFFFF, 0x48), (0, 0x69)] condZro
    (∀ k, k < 2 → s.memRead (s.reg 0 + BitVec.ofNat 16 k) ≠ 0) ∧ s.memRead (s.reg 0 + BitVec.ofNat 16 2) = 0 ∧
    s.conOut.accepts 2 = true ∧ 1 < 2 ∧ ({ s with conOut := .failingAfter 1 }).conOut = .failingAfter 1 := by decide
theorem witness_PutspWritesPackedBytes :
    let s := at_ 0x3000 0xF024 [(0, 0xFFFF)] [(0xFFFF, 0x6948), (0, 0x0021)] condZro
    (∀ k, k < 2 → s.memRead (s.reg 0 + BitVec.ofNat 16 k) ≠ 0) ∧ s.memRead (s.reg 0 + BitVec.ofNat 16 2) = 0 ∧
    s.conOut.accepts 3 = true ∧ 1 < ((List.range 2).flatMap fun k => packedBytes (s.memRead (s.reg 0 + BitVec.ofNat 16 k))).length ∧
    ({ s with conOut := .failingAfter 1 }).conOut = .failingAfter 1 := by decide
theorem witness_EndlessScanRepeatsMemory :
    (∀ a, full.memRead a ≠ 0) ∧ full.conOut = .accepting ∧ full.conOut.accepts (passBytes .puts full).length = true ∧
    0 < (passBytes .putsp full).length ∧ ({ full with conOut := .failingAfter 0 }).conOut = .failingAfter 0 ∧
    ({ full with es := .running (.scanning .puts) }).es = .running (.scanning .puts) :=
  ⟨full_has_no_zero_word, rfl, rfl, passBytes_pos .putsp full, rfl, rfl⟩
theorem witness_InPromptsReadsAndEchoes :
    let s := { at_ 0x3000 0xF023 [] [] condZro with conIn := [.byte 0], conOut := .failingAfter 3 }
    s.conIn = [.byte 0] ∧ s.conOut.accepts (s.cfg.inPrompt.length + 1) = true := by decide
theorem witness_InWaitsOrFails :
    let s := at_ 0x3000 0xF023 [] [] condZro
    (s.conIn = [] ∧ s.conOut.accepts s.cfg.inPrompt.length = true) ∧
    ({ s with conIn := [.ioError] }).conIn = [.ioError] ∧ (({ s with conOut := .failingAfter 1 }).conOut = .failingAfter 1 ∧
    1 < s.cfg.inPrompt.length) ∧ ({ s with conIn := [.byte 7], conOut := .failingAfter 2 }).conOut =
      .failingAfter s.cfg.inPrompt.length := by decide
theorem witness_WaitInputEndsByAnAnswer :
    (waitingState .getc []).es = .running (.waitInput .getc) ∧ (waitingState .getc []).conIn = [] ∧
    (waitingState .inChar [.byte 0xFF]).conIn = [.byte 0xFF] ∧ (waitingState .inChar [.byte 0xFF]).conOut.accepts 1 = true ∧
    (waitingState .inChar [.ioError]).conIn = [.ioError] ∧
    ({ waitingState .inChar [.byte 0xFF] with conOut := .failingAfter 0 }).conOut = .failingAfter 0 := by decide
theorem witness_HaltWritesTheBannerAndHalts :
    let s := at_ 0x3000 0xF025 [] [] condZro
    s.conOut.accepts s.cfg.haltBanner.length = true ∧
    ({ s with conOut := .failingAfter 0 }).conOut = .failingAfter 0 ∧ 0 < s.cfg.haltBanner.length := by decide
theorem witness_ReservedOpcodesHalt : (0x8FFF : Word) &&& 0xF000 = 0x8000 ∧ (0xD001 : Word) &&& 0xF000 = 0xD000 := by decide

end Sys2Proof.Tests
end

section
/-! Sign extension of an instruction's field (R11), once for every field width; `sext5`, `sext6`, `sext9` and `sext11` are
its instances. -/
namespace Sys2Proof.Machine

/-- R11's copy of the top bit, when that bit is set: ones in every bit from `w` up. -/
theorem signExtend_eq_or_of_msb_true {w : Nat} (v : Nat) {f : BitVec w} (hmsb : f.msb = true) :
    f.signExtend v = f.zeroExtend v ||| (BitVec.allOnes v <<< w) := by
  ext i hi
  by_cases hiw : i < w
  · simp [BitVec.getElem_signExtend, hiw]
  · simp [BitVec.getElem_signExtend, hiw, hmsb]

/-- R11 for a field of any width up to the word's. -/
theorem signExtend_word_spec {w : Nat} (hw : w ≤ 16) (f : BitVec w) :
    (f.getLsbD (w - 1) = false → f.signExtend 16 = f.zeroExtend 16) ∧
    (f.getLsbD (w - 1) = true → f.signExtend 16 = f.zeroExtend 16 ||| (0xFFFF#16 <<< w)) ∧
    (f.signExtend 16).toInt = f.toInt := by
  rw [← BitVec.msb_eq_getLsbD_last]
  refine ⟨fun hmsb => ?clear, fun hmsb => ?set, ?value⟩
  case clear => exact BitVec.signExtend_eq_setWidth_of_msb_false hmsb
  case set => exact signExtend_eq_or_of_msb_true 16 hmsb
  case value => exact BitVec.toInt_signExtend_of_le hw

/-- Settles O13: each of the four fields is an instance of `signExtend_word_spec`. -/
theorem fieldsAreSignExtended : Obligations.FieldsAreSignExtended :=
  ⟨fun f => signExtend_word_spec (by decide) f, fun f => signExtend_word_spec (by decide) f,
    fun f => signExtend_word_spec (by decide) f, fun f => signExtend_word_spec (by decide) f⟩

end Sys2Proof.Machine
end

section
/-! What the decoder, the services and the load port do, said once for the statements of 10_state.md: the instruction of
a TRAP's vector, the engine states a service leaves, each way a read ends, and what a load may change. -/
namespace Sys2Proof.Machine

open Sys2Proof.Safety

/-! ### The instruction of a TRAP's vector -/

theorem trapVector_decodeTrap (v : Byte) : trapVector (decodeTrap v) = some v := by
  unfold decodeTrap
  split_ifs with h0 h1 h2 h3 h4 h5 <;> simp [trapVector, *]

/-- The decoder names a TRAP by its vector's own row, where there is one (R180, R96). -/
theorem decode_eq_decodeTrap {w : Word} {v : Byte} (h : trapVector (decode w) = some v) : decode w = decodeTrap v := by
  have of_none {i : Instr} (hn : trapVector i = none) (hs : trapVector i = some v) : i = decodeTrap v := by
    rw [hn] at hs; cases hs
  revert h
  unfold decode
  split
  case h_16 =>
    intro h
    rw [trapVector_decodeTrap] at h
    rw [Option.some.inj h]
  case h_13 =>
    unfold decodeJmp
    split <;> exact of_none rfl
  case h_2 | h_5 | h_6 => split <;> exact of_none rfl
  all_goals exact of_none rfl

theorem decodeTrap_readVector (svc : ReadService) : decodeTrap svc.vector = readInstr svc := by cases svc <;> rfl

theorem decodeTrap_scanVector (svc : ScanService) : decodeTrap svc.vector = scanInstr svc := by cases svc <;> rfl

/-- A vector that is none of the six has no row of its own. -/
theorem decodeTrap_of_not_recognised {v : Byte} (h : recognisedVector v = false) : decodeTrap v = .trap v := by
  simp only [recognisedVector, Bool.or_eq_false_iff, beq_eq_false_iff_ne] at h
  obtain ⟨⟨⟨⟨⟨h0, h1⟩, h2⟩, h3⟩, h4⟩, h5⟩ := h
  simp only [decodeTrap, h0, h1, h2, h3, h4, h5, if_false]

theorem readVector_reads (svc : ReadService) : svc.vector = 0x20 ∨ svc.vector = 0x23 := by cases svc <;> decide

theorem scanVector_reads_not (svc : ScanService) : ¬(svc.vector = 0x20 ∨ svc.vector = 0x23) := by cases svc <;> decide

/-- The engine state a service leaves: the one it began in, WAIT_INPUT, an endless scan, HALTED or FAULTED. -/
theorem TrapShape.es_cases {v : Byte} {s t : State} (h : TrapShape v s t) :
    t.es = s.es ∨ (∃ svc : ReadService, v = svc.vector ∧ s.conIn = [] ∧ t.es = .running (.waitInput svc)) ∨
      (∃ svc : ScanService, v = svc.vector ∧ t.es = .running (.scanning svc)) ∨ (v = 0x25 ∧ t.es = .halted) ∨
      ∃ f, t.es = .faulted f := by
  cases h with
  | wrote ci co bs hv hr ht => exact .inl (by simp [ht])
  | read ci co bs b hv ht => exact .inl (by simp [ht])
  | waits svc ci co bs hv hin ht => exact .inr (.inl ⟨svc, hv, hin, by simp [ht]⟩)
  | scans svc ci co bs hv hnz ht => exact .inr (.inr (.inl ⟨svc, hv, by simp [ht]⟩))
  | halts ci co bs hv ht => exact .inr (.inr (.inr (.inl ⟨hv, by simp [ht]⟩)))
  | fails port ci co bs hv hin hout ht => exact .inr (.inr (.inr (.inr ⟨_, by rw [ht, setEs_es]⟩)))
  | invalid hv ht => exact .inr (.inr (.inr (.inr ⟨_, by rw [ht, setEs_es]⟩)))

/-! ### What LOAD may change -/

theorem failedLoad_eq_mem (bytes : List Byte) (landed : Nat → Bool) (s : State) :
    ∃ m, s.failedLoad bytes landed = { s with mem := m } := by
  unfold State.failedLoad
  split
  · exact ⟨s.mem, rfl⟩
  · exact ⟨_, rfl⟩

theorem loadImage_eq_mem (origin : Word) (words : List Word) (s : State) :
    ∃ m, s.loadImage origin words = { s with mem := m } := by
  unfold State.loadImage
  split
  · exact ⟨_, rfl⟩
  · exact ⟨s.mem, rfl⟩

theorem load_ignored {s : State} (h : s.es ≠ .created) (src : ImageSource) (landed : Nat → Bool) :
    s.load src landed = (s, .ignored) := if_neg h

/-- A LOAD transaction changes nothing but memory, whatever its source and its answer (R40, R255). -/
theorem load_eq_mem (src : ImageSource) (landed : Nat → Bool) (s : State) :
    ∃ m, (s.load src landed).1 = { s with mem := m } := by
  by_cases hes : s.es = .created
  · unfold State.load
    rw [if_pos hes]
    cases src with
    | unreadable bytes => exact failedLoad_eq_mem bytes landed s
    | stream bytes =>
      dsimp only
      split
      · exact loadImage_eq_mem _ _ s
      · exact failedLoad_eq_mem bytes landed s
  · exact ⟨s.mem, by rw [load_ignored hes]⟩

theorem start_of_created {s : State} (h : s.es = .created) :
    s.start = { s with cond := condZro, pc := 0x3000, es := .running .ready } := if_pos h

/-- START writes no general register (R256). -/
theorem reg_start (s : State) (q : Reg) : s.start.reg q = s.reg q := by
  unfold State.start
  split <;> rfl

/-! ### Each way a read ends -/

/-- IN after its prompt, with a byte whose echo is accepted. -/
theorem inCharRead_byte {s : State} {b : Byte} {rest : List InAnswer} (hin : s.conIn = .byte b :: rest)
    (hout : s.conOut.accepts 1 = true) : inCharRead s = (s.answered.wrote [b]).setRegCc 0 (zext16 b) := by
  unfold inCharRead
  rw [consoleRead_byte hin, consoleWrite_ok (by simpa using hout)]

/-- IN after its prompt, with a byte whose echo fails: no byte is written and R0 is not reached (R182, log 14). -/
theorem inCharRead_echoFails {s : State} {b : Byte} {rest : List InAnswer} (hin : s.conIn = .byte b :: rest)
    (hout : s.conOut = .failingAfter 0) :
    inCharRead s = (s.answered.wrote []).setEs (.faulted (.consoleIOError .conOut 0x23 (s.pc - 1))) := by
  unfold inCharRead
  rw [consoleRead_byte hin, consoleWrite_fail (by simp [hout])]
  simp [hout, OutPort.accepted]

/-- IN whose prompt is accepted goes on with its read. -/
theorem inCharBody_prompted {s : State} (h : s.conOut.accepts s.cfg.inPrompt.length = true) :
    inCharBody s = inCharRead (s.wrote s.cfg.inPrompt) := consoleWrite_ok h

/-- IN whose prompt fails ends before its read. -/
theorem inCharBody_promptFails {s : State} {m : Nat} (h : s.conOut = .failingAfter m) (hm : m < s.cfg.inPrompt.length) :
    inCharBody s =
      (s.wrote (s.cfg.inPrompt.take m)).setEs (.faulted (.consoleIOError .conOut 0x23 (s.pc - 1))) := by
  unfold inCharBody
  rw [consoleWrite_fail (by simpa [h] using hm)]
  simp [h, OutPort.accepted, Nat.min_eq_right (Nat.le_of_lt hm)]

/-- Without an answer a service in WAIT_INPUT goes on waiting, and nothing changes. -/
theorem resumeRead_noAnswer {s : State} {svc : ReadService} (hes : s.es = .running (.waitInput svc))
    (hin : s.conIn = []) : resumeRead svc s = s := by
  have back : s.trapReturn.setEs (.running (.waitInput svc)) = s := by rw [← hes]; rfl
  cases svc with
  | getc => exact (consoleRead_wait (s := s.trapReturn) hin).trans back
  | inChar => exact (consoleRead_wait (s := s.trapReturn) hin).trans back

/-- With io_error a service in WAIT_INPUT faults. -/
theorem resumeRead_ioError {s : State} {rest : List InAnswer} (svc : ReadService) (hin : s.conIn = .ioError :: rest) :
    resumeRead svc s =
      s.trapReturn.answered.setEs (.faulted (.consoleIOError .conIn svc.vector (s.pc - 1))) := by
  cases svc with
  | getc => exact consoleRead_ioError (s := s.trapReturn) hin
  | inChar => exact consoleRead_ioError (s := s.trapReturn) hin

/-- Going on with a scan is a pass from the state that is ready again. -/
theorem resumeScan_eq_scanBody (svc : ScanService) (s : State) :
    ∃ bytesOf, resumeScan svc s = scanBody svc bytesOf s.trapReturn := by
  cases svc with
  | puts => exact ⟨putsBytes, rfl⟩
  | putsp => exact ⟨putspBytes, rfl⟩

end Sys2Proof.Machine
end

section
/-! The canonical form of the memory list (log 1): two memories in it that read alike are the same list. -/
namespace Sys2Proof.Machine

/-- A memory in canonical form that lists a cell does not read as the empty one. -/
theorem Memory.read_head_ne_unlisted {k : Nat} {v : Word} {rest : Memory} (h : Memory.wf ((k, v) :: rest) = true) :
    Memory.read ((k, v) :: rest) (BitVec.ofNat 16 k) ≠ Memory.unlisted := by
  obtain ⟨hk, hv, -, -⟩ := Memory.wf_cons.mp h
  rwa [Memory.read_head hk]

/-- Of two memories in canonical form that read alike the second has no first address above the first's: it would read
as unlisted there. -/
theorem Memory.head_le_of_read_eq {k k' : Nat} {v v' : Word} {rest rest' : Memory}
    (h : Memory.wf ((k, v) :: rest) = true) (h' : Memory.wf ((k', v') :: rest') = true)
    (heq : ∀ a, Memory.read ((k, v) :: rest) a = Memory.read ((k', v') :: rest') a) : k' ≤ k := by
  by_contra hlt
  obtain ⟨hk, -, -, -⟩ := Memory.wf_cons.mp h
  obtain ⟨-, -, habove, -⟩ := Memory.wf_cons.mp h'
  have hto : (BitVec.ofNat 16 k).toNat = k := by simp [Nat.mod_eq_of_lt hk]
  refine Memory.read_head_ne_unlisted h ((heq _).trans (Memory.read_of_lt fun c hc => ?_))
  rw [hto]
  rcases List.mem_cons.mp hc with rfl | hc
  · exact Nat.lt_of_not_le hlt
  · exact Nat.lt_trans (Nat.lt_of_not_le hlt) (habove c hc)

/-- What a memory in canonical form reads beyond its first cell: unlisted at the first's address, and else as before. -/
theorem Memory.read_tail {k : Nat} {v : Word} {rest : Memory} (h : Memory.wf ((k, v) :: rest) = true) (a : Word) :
    Memory.read rest a = if k = a.toNat then Memory.unlisted else Memory.read ((k, v) :: rest) a := by
  obtain ⟨-, -, habove, -⟩ := Memory.wf_cons.mp h
  split
  · rename_i hka
    exact Memory.read_of_lt fun c hc => hka ▸ habove c hc
  · rename_i hka
    exact (if_neg hka).symm

theorem Memory.eq_of_read_eq {m m' : Memory} (h : m.wf = true) (h' : m'.wf = true)
    (heq : ∀ a, Memory.read m a = Memory.read m' a) : m = m' := by
  induction m generalizing m' with
  | nil =>
    cases m' with
    | nil => rfl
    | cons c' rest' => exact absurd (heq _).symm (Memory.read_head_ne_unlisted h')
  | cons c rest ih =>
    obtain ⟨k, v⟩ := c
    cases m' with
    | nil => exact absurd (heq _) (Memory.read_head_ne_unlisted h)
    | cons c' rest' =>
      obtain ⟨k', v'⟩ := c'
      have hkk : k = k' :=
        Nat.le_antisymm (Memory.head_le_of_read_eq h' h fun a => (heq a).symm) (Memory.head_le_of_read_eq h h' heq)
      subst hkk
      obtain ⟨hk, -, -, hrest⟩ := Memory.wf_cons.mp h
      obtain ⟨-, -, -, hrest'⟩ := Memory.wf_cons.mp h'
      have hvv : v = v' := by simpa [Memory.read_head hk] using heq (BitVec.ofNat 16 k)
      have htail : rest = rest' :=
        ih hrest hrest' fun a => by rw [Memory.read_tail h, Memory.read_tail h', heq a]
      rw [hvv, htail]

/-- Settles O16: a write keeps the form, and a list in it is determined by what it reads as, cell by cell. -/
theorem memoryFormIsCanonical : Obligations.MemoryFormIsCanonical :=
  ⟨fun _ a v h => Memory.write_wf h a v, fun _ _ h h' heq => Memory.eq_of_read_eq h h' heq⟩

end Sys2Proof.Machine
end

section
/-! The invariant of every reachable state, one introduction per engine state, and its preservation by a step. -/
namespace Sys2Proof.Safety

open Sys2Proof.Machine

theorem FlagIs.oneFlag {v : Word} {c : BitVec 3} (h : FlagIs v c) : OneFlag c := by
  by_cases h0 : v = 0
  · exact .inr (.inl (h.zro h0))
  · cases hn : v.getLsbD 15 with
    | true => exact .inr (.inr (h.neg hn))
    | false => exact .inl (h.pos h0 hn)

/-- The clause of `Inv` that speaks of the engine state `e`, for a state whose run has started. -/
def EngineFits : EngineState → State → Prop
  | .created, _ => False
  | .running .ready, _ => True
  | .running (.waitInput svc), s => decode s.ir = readInstr svc ∧ s.reg 7 = s.pc
  | .running (.scanning svc), s => decode s.ir = scanInstr svc ∧ s.reg 7 = s.pc ∧ ∀ a, s.memRead a ≠ 0
  | .halted, s => stopsEngine (decode s.ir) = true
  | .faulted f, s => RecordFits f s ∧ s.reg 7 = s.pc

/-- From START on the invariant is the form of memory, one flag, and the clause of the engine state. -/
theorem inv_of_engineFits {s : State} {e : EngineState} (hes : s.es = e) (hmem : s.mem.wf = true)
    (hflag : OneFlag s.cond) (hfits : EngineFits e s) : Inv s where
  memory := hmem
  created h := by cases hes.symm.trans h; exact hfits.elim
  oneFlag _ := hflag
  waiting _ h := by cases hes.symm.trans h; exact hfits
  scanning _ h := by cases hes.symm.trans h; exact hfits
  halted h := by cases hes.symm.trans h; exact hfits
  faulted _ h := by cases hes.symm.trans h; exact hfits

/-! ### What keeps it -/

/-- A service keeps the invariant: begun at its TRAP or gone on with, from a state that is ready, whose instruction
register holds the TRAP and whose R7 holds the link. -/
theorem inv_of_trapShape {v : Byte} {s t : State} (h : TrapShape v s t) (hes : s.es = .running .ready)
    (hmem : s.mem.wf = true) (hflag : OneFlag s.cond) (hdec : decode s.ir = decodeTrap v) (hlink : s.reg 7 = s.pc) :
    Inv t := by
  have hmem' : t.mem.wf = true := by rw [h.mem_eq, hmem]
  have hdec' : decode t.ir = decodeTrap v := by rw [h.ir_eq, hdec]
  have hpc : t.pc = s.pc := h.pc_eq
  have hlink' : t.reg 7 = t.pc := by rw [h.reg_eq 7 (fun e => by cases e), hpc, hlink]
  have hflag' : OneFlag t.cond := by
    rcases h.cond_cases with hc | ⟨-, hc⟩
    · rwa [hc]
    · exact hc.oneFlag
  have hret : s.pc - 1 + 1 = t.pc := by rw [hpc, BitVec.sub_add_cancel]
  cases h with
  | wrote ci co bs hv hr ht =>
    subst ht
    exact inv_of_engineFits (s := s.withConsole ci co bs) hes hmem' hflag' trivial
  | read ci co bs b hv ht =>
    subst ht
    exact inv_of_engineFits (s := (s.withConsole ci co bs).setRegCc 0 (zext16 b)) hes hmem' hflag' trivial
  | waits svc ci co bs hv hin ht =>
    subst ht
    rw [hv, decodeTrap_readVector] at hdec'
    exact inv_of_engineFits (setEs_es _ _) hmem' hflag' ⟨hdec', hlink'⟩
  | scans svc ci co bs hv hnz ht =>
    subst ht
    rw [hv, decodeTrap_scanVector] at hdec'
    exact inv_of_engineFits (setEs_es _ _) hmem' hflag' ⟨hdec', hlink', hnz⟩
  | halts ci co bs hv ht =>
    subst ht
    rw [hv] at hdec'
    exact inv_of_engineFits (setEs_es _ _) hmem' hflag' (congrArg stopsEngine hdec')
  | fails port ci co bs hv hin hout ht =>
    subst ht
    exact inv_of_engineFits (setEs_es _ _) hmem' hflag' ⟨⟨hdec', hv, hret, hin, hout⟩, hlink'⟩
  | invalid hv ht =>
    subst ht
    rw [decodeTrap_of_not_recognised hv] at hdec'
    exact inv_of_engineFits (setEs_es _ _) hmem' hflag' ⟨⟨hdec', hv, hret⟩, hlink'⟩

/-- An instruction keeps the invariant, run after its fetch. -/
theorem inv_of_execShape {i : Instr} {s t : State} (h : ExecShape i s t) (hes : s.es = .running .ready)
    (hmem : s.mem.wf = true) (hflag : OneFlag s.cond) (hdec : decode s.ir = i) : Inv t := by
  cases h with
  | writes dr v hw hf hn hs ht =>
    subst ht
    exact inv_of_engineFits (s := s.setRegCc dr v) hes hmem (flagOf_oneFlag v) trivial
  | stores a v hi hf hn hs ht =>
    subst ht
    exact inv_of_engineFits (s := s.memWrite a v) hes (Memory.write_wf hmem a v) hflag trivial
  | jumps target hi hf hn hs ht =>
    subst ht
    exact inv_of_engineFits (s := s.setPc target) hes hmem hflag trivial
  | calls target hi hw hf hn hs ht =>
    subst ht
    exact inv_of_engineFits (s := s.link.setPc target) hes hmem hflag trivial
  | halts hf hn hs ht =>
    subst ht hdec
    exact inv_of_engineFits (s := s.halt) rfl hmem hflag hs
  | traps v hv hw hf hs hst hc ht =>
    subst hdec
    exact inv_of_trapShape ht hes hmem hflag (decode_eq_decodeTrap hv) (by simp)

/-- Settles O19: a step runs an instruction, goes on with a service, or changes nothing. -/
theorem stepKeepsTheInvariant : Obligations.StepKeepsTheInvariant := by
  unfold Obligations.StepKeepsTheInvariant
  intro s t hs hstep
  rcases step_cases hstep with ⟨hes, hexec⟩ | ⟨svc, hes, ht⟩ | ⟨svc, hes, ht⟩ | ⟨-, ht⟩
  · exact inv_of_execShape (s := s.fetch) (exec_shape hexec) hes hs.memory (hs.oneFlag (by simp [hes])) (by simp)
  · obtain ⟨hdec, hlink⟩ := hs.waiting svc hes
    subst ht
    exact inv_of_trapShape (resumeRead_shape svc s) rfl hs.memory (hs.oneFlag (by simp [hes]))
      (hdec.trans (decodeTrap_readVector svc).symm) hlink
  · obtain ⟨hdec, hlink, -⟩ := hs.scanning svc hes
    subst ht
    exact inv_of_trapShape (resumeScan_shape svc s) rfl hs.memory (hs.oneFlag (by simp [hes]))
      (hdec.trans (decodeTrap_scanVector svc).symm) hlink
  · rwa [ht]

end Sys2Proof.Safety
end

section
/-! The engine: what a step may do to ES, pc, the registers, the flags and memory (10_state.md R21 to R34). -/
namespace Sys2Proof.Machine

open Sys2Proof.Safety

/-! ### TRAP -/

/-- What a TRAP is: its service, from the state after the link; only GETC and IN set the flags. -/
theorem ExecShape.of_trap {i : Instr} {s t : State} {v : Byte} (h : ExecShape i s t) (hi : trapVector i = some v) :
    TrapShape v s.trapEntry t ∧ flagReg i = if v = 0x20 ∨ v = 0x23 then some 0 else none := by
  have of_none {P : Prop} (hn : trapVector i = none) : P := by rw [hi] at hn; cases hn
  cases h with
  | traps v' hv hw hf hs hst hc ht =>
    rw [hi] at hv
    cases hv
    exact ⟨ht, hf⟩
  | writes dr v hw hf hn hs ht => exact of_none hn
  | stores a v hst hf hn hs ht => exact of_none hn
  | jumps target hc hf hn hs ht => exact of_none hn
  | calls target hc hw hf hn hs ht => exact of_none hn
  | halts hf hn hs ht => exact of_none hn

/-- Every TRAP saves its return address, and its service keeps it there (R180). -/
theorem ExecShape.link_of_trap {i : Instr} {s t : State} {v : Byte} (h : ExecShape i s t) (hi : trapVector i = some v) :
    t.reg 7 = s.pc := by
  obtain ⟨hshape, -⟩ := h.of_trap hi
  rw [hshape.reg_eq 7 (fun e => by cases e), trapEntry_eq, reg_setReg_self]

/-! ### The engine state -/

/-- The engine states an instruction leaves, from one that is ready: it goes on, it stops as HALT, RTI and RES do, or it
is a TRAP whose service waits, scans or faults. -/
theorem ExecShape.es_cases {i : Instr} {s t : State} (h : ExecShape i s t) (hes : s.es = .running .ready) :
    t.es = .running .ready ∨ (t.es = .halted ∧ stopsEngine i = true) ∨ ∃ v, trapVector i = some v ∧
      ((∃ svc : ReadService, v = svc.vector ∧ s.conIn = [] ∧ t.es = .running (.waitInput svc)) ∨
        (∃ svc : ScanService, v = svc.vector ∧ t.es = .running (.scanning svc)) ∨ ∃ f, t.es = .faulted f) := by
  cases h with
  | writes dr v hw hf hn hs ht => subst ht; exact .inl hes
  | stores a v hi hf hn hs ht => subst ht; exact .inl hes
  | jumps target hi hf hn hs ht => subst ht; exact .inl hes
  | calls target hi hw hf hn hs ht => subst ht; exact .inl hes
  | halts hf hn hs ht => subst ht; exact .inr (.inl ⟨rfl, hs⟩)
  | traps v hv hw hf hs hst hc ht =>
    rcases ht.es_cases with he | ⟨svc, hsvc, hin, he⟩ | ⟨svc, hsvc, he⟩ | ⟨h25, he⟩ | ⟨f, he⟩
    · exact .inl (he.trans hes)
    · exact .inr (.inr ⟨v, hv, .inl ⟨svc, hsvc, hin, he⟩⟩)
    · exact .inr (.inr ⟨v, hv, .inr (.inl ⟨svc, hsvc, he⟩)⟩)
    · exact .inr (.inl ⟨he, by simp [hs, h25]⟩)
    · exact .inr (.inr ⟨v, hv, .inr (.inr ⟨f, he⟩)⟩)

/-- A service in WAIT_INPUT completes or faults, or waits on because the port has not answered. -/
theorem resumeRead_es_cases {s : State} {svc : ReadService} (hes : s.es = .running (.waitInput svc)) :
    (resumeRead svc s).es = .running .ready ∨ (∃ f, (resumeRead svc s).es = .faulted f) ∨
      (resumeRead svc s = s ∧ s.conIn = []) := by
  by_cases hin : s.conIn = []
  · exact .inr (.inr ⟨resumeRead_noAnswer hes hin, hin⟩)
  · rcases (resumeRead_shape svc s).es_cases with he | ⟨_, _, hin', _⟩ | ⟨scan, hscan, _⟩ | ⟨h25, _⟩ | hf
    · exact .inl he
    · exact absurd hin' hin
    · cases svc <;> cases scan <;> cases hscan
    · cases svc <;> cases h25
    · exact .inr (.inl hf)

/-- An endless scan goes on, ends at a zero word, or faults at a write. -/
theorem resumeScan_es_cases (svc : ScanService) (s : State) :
    (resumeScan svc s).es = .running (.scanning svc) ∨
      ((resumeScan svc s).es = .running .ready ∧ ∃ a, s.memRead a = 0) ∨
      (resumeScan svc s).es = .faulted (.consoleIOError .conOut svc.vector (s.pc - 1)) := by
  obtain ⟨bytesOf, hbody⟩ := resumeScan_eq_scanBody svc s
  rw [hbody]
  rcases scanBody_cases svc bytesOf s.trapReturn with ⟨bs, hz, h⟩ | ⟨bs, -, h⟩ | ⟨bs, h⟩
  · exact .inr (.inl ⟨by rw [h]; rfl, hz⟩)
  · exact .inl (by rw [h, setEs_es])
  · exact .inr (.inr (by rw [h]; rfl))

/-- No step leads to CREATED. -/
theorem not_created_of_step {s t : State} (hstep : step s = .next t) (he : t.es = .created) : s.es = .created := by
  rcases step_cases hstep with ⟨hes, hexec⟩ | ⟨svc, hes, ht⟩ | ⟨svc, hes, ht⟩ | ⟨-, ht⟩
  · have hcases := (exec_shape hexec).es_cases (s := s.fetch) hes
    simp [he] at hcases
  · subst ht
    have hcases := resumeRead_es_cases hes
    obtain ⟨hstays, -⟩ : resumeRead svc s = s ∧ s.conIn = [] := by simpa [he] using hcases
    rwa [hstays] at he
  · subst ht
    have hcases := resumeScan_es_cases svc s
    simp [he] at hcases
  · rwa [ht] at he

/-- Settles O23: the engine states of a step are those of the instruction it runs, or of the service it goes on with. -/
theorem engineStateTransitions : Obligations.EngineStateTransitions := by
  unfold Obligations.EngineStateTransitions
  refine fun s t hstep =>
    ⟨not_created_of_step hstep, fun hes => ?ready, fun svc hes => ?waiting, fun svc hes => ?scanning⟩
  case ready =>
    have hexec : exec (decode (s.memRead s.pc)) s.fetch = .next t := (step_ready hes).symm.trans hstep
    have hcases := (exec_shape hexec).es_cases (s := s.fetch) hes
    refine ⟨fun he => ?halts, fun f he => ?faults, fun svc he => ?waits, fun svc he => ?scans⟩ <;> rw [he] at hcases
    case halts => simpa using hcases
    case faults =>
      obtain ⟨v, hv⟩ : ∃ v, trapVector (decode (s.memRead s.pc)) = some v := by simpa using hcases
      rw [hv, Option.isSome_some]
    case waits =>
      obtain ⟨hv, hin⟩ : trapVector (decode (s.memRead s.pc)) = some svc.vector ∧ s.conIn = [] := by
        simpa using hcases
      exact ⟨(decode_eq_decodeTrap hv).trans (decodeTrap_readVector svc), hin⟩
    case scans =>
      have hv : trapVector (decode (s.memRead s.pc)) = some svc.vector := by simpa using hcases
      exact (decode_eq_decodeTrap hv).trans (decodeTrap_scanVector svc)
  case waiting =>
    rw [step_waiting hes] at hstep
    cases hstep
    exact resumeRead_es_cases hes
  case scanning =>
    rw [step_scanning hes] at hstep
    cases hstep
    exact resumeScan_es_cases svc s

/-! ### pc -/

theorem ExecShape.pc_eq {i : Instr} {s t : State} (h : ExecShape i s t) (hi : transfersControl i = false) :
    t.pc = s.pc := by
  cases h with
  | writes dr v hw hf hn hs ht => rw [ht]; rfl
  | stores a v hst hf hn hs ht => rw [ht]; rfl
  | jumps target hc hf hn hs ht => rw [hi] at hc; cases hc
  | calls target hc hw hf hn hs ht => rw [hi] at hc; cases hc
  | halts hf hn hs ht => rw [ht]; rfl
  | traps v hv hw hf hs hst hc ht => exact ht.pc_eq

/-- A step that does not fetch goes on with a service, from the state that is ready again, or changes nothing. -/
theorem step_cases_of_not_ready {s t : State} (hne : s.es ≠ .running .ready) (h : step s = .next t) :
    (∃ v, TrapShape v s.trapReturn t) ∨ t = s := by
  rcases step_cases h with ⟨hes, -⟩ | ⟨svc, -, ht⟩ | ⟨svc, -, ht⟩ | ⟨-, ht⟩
  · exact absurd hes hne
  · exact .inl ⟨_, ht ▸ resumeRead_shape svc s⟩
  · exact .inl ⟨_, ht ▸ resumeScan_shape svc s⟩
  · exact .inr ht

/-- Settles O24: of the shapes of an instruction only jumps and calls write pc, and no service does. -/
theorem onlyControlTransfersWritePc : Obligations.OnlyControlTransfersWritePc := by
  unfold Obligations.OnlyControlTransfersWritePc
  refine ⟨fun s hes => ?fetch, fun i s t hi h => ?other, fun nzp off s t hsel h => ?branch, fun s t hne h => ?service,
    rfl, fun s hes => ?start, fun s => ⟨fun src landed => ?load, fun _ => rfl, fun _ => rfl⟩⟩
  case fetch => exact step_ready hes
  case other => exact (exec_shape h).pc_eq hi
  case branch =>
    cases h
    simp [State.condSelected, BitVec.and_comm s.cond nzp, hsel]
  case service =>
    rcases step_cases_of_not_ready hne h with ⟨v, hshape⟩ | rfl
    · exact hshape.pc_eq
    · rfl
  case start => rw [start_of_created hes]
  case load =>
    obtain ⟨m, hm⟩ := load_eq_mem src landed s
    rw [hm]

/-! ### The general registers -/

theorem ExecShape.reg_eq {i : Instr} {s t : State} (h : ExecShape i s t) {r : Reg} (hr : r ∉ writtenRegs i) :
    t.reg r = s.reg r := by
  cases h with
  | writes dr v hw hf hn hs ht =>
    rw [hw, List.mem_singleton] at hr
    simp [ht, reg_setReg_ne _ _ hr]
  | stores a v hst hf hn hs ht => rw [ht]; rfl
  | jumps target hc hf hn hs ht => rw [ht]; rfl
  | calls target hc hw hf hn hs ht =>
    rw [hw, List.mem_singleton] at hr
    simp [ht, reg_setReg_ne _ _ hr]
  | halts hf hn hs ht => rw [ht]; rfl
  | traps v hv hw hf hs hst hc ht =>
    rw [hw] at hr
    have h7 : r ≠ 7 := by
      rintro rfl
      split at hr <;> simp at hr
    have h0 : r = 0 → ¬(v = 0x20 ∨ v = 0x23) := by
      rintro rfl hread
      rw [if_pos hread] at hr
      simp at hr
    rw [ht.reg_eq r h0, trapEntry_eq, reg_setReg_ne _ _ h7]

/-- Settles O25, by the shapes of the instructions, of the services and of a load. -/
theorem onlyDestinationsAreWritten : Obligations.OnlyDestinationsAreWritten := by
  unfold Obligations.OnlyDestinationsAreWritten
  refine ⟨fun i s t r h hr => ?instr, fun i s t hv h => ?link, fun s t svc hes h => ?read, fun s t svc hes h => ?scan,
    fun s => ⟨fun src landed => ?load, reg_start s, fun _ _ => rfl, fun _ _ => rfl⟩⟩
  case instr => exact (exec_shape h).reg_eq hr
  case link =>
    obtain ⟨v, hv⟩ := Option.isSome_iff_exists.mp hv
    exact (exec_shape h).link_of_trap hv
  case read =>
    rw [step_waiting hes] at h
    cases h
    exact fun q hq => (resumeRead_shape svc s).reg_eq q fun h0 => absurd h0 hq
  case scan =>
    rw [step_scanning hes] at h
    cases h
    exact fun q => (resumeScan_shape svc s).reg_eq q fun _ => scanVector_reads_not svc
  case load =>
    obtain ⟨m, hm⟩ := load_eq_mem src landed s
    rw [hm]
    exact fun _ => rfl

/-! ### The flags -/

/-- An instruction that sets no flag leaves COND. -/
theorem ExecShape.cond_eq {i : Instr} {s t : State} (h : ExecShape i s t) (hi : flagReg i = none) :
    t.cond = s.cond := by
  cases h with
  | writes dr v hw hf hn hs ht => rw [hi] at hf; cases hf
  | stores a v hst hf hn hs ht => rw [ht]; rfl
  | jumps target hc hf hn hs ht => rw [ht]; rfl
  | calls target hc hw hf hn hs ht => rw [ht]; rfl
  | halts hf hn hs ht => rw [ht]; rfl
  | traps v hv hw hf hs hst hc ht =>
    rcases ht.cond_cases with hcond | ⟨hread, -⟩
    · exact hcond
    · rw [hi, if_pos hread] at hf; cases hf

/-- An instruction other than a TRAP that sets the flags sets them from its destination. -/
theorem ExecShape.flagIs_of_not_trap {i : Instr} {s t : State} {r : Reg} (h : ExecShape i s t) (hi : flagReg i = some r)
    (hv : trapVector i = none) : FlagIs (t.reg r) t.cond := by
  have of_none {P : Prop} (hf : flagReg i = none) : P := by rw [hi] at hf; cases hf
  cases h with
  | writes dr v hw hf hn hs ht =>
    rw [hi] at hf
    cases hf
    simpa [ht] using flagOf_flagIs v
  | stores a v hst hf hn hs ht => exact of_none hf
  | jumps target hc hf hn hs ht => exact of_none hf
  | calls target hc hw hf hn hs ht => exact of_none hf
  | halts hf hn hs ht => exact of_none hf
  | traps v hv' hw hf hs hst hc ht => rw [hv] at hv'; cases hv'

/-- Settles O26: a service's shape from a state that is ready says when it sets COND, and from what. -/
theorem flagsComeFromTheDestination : Obligations.FlagsComeFromTheDestination := by
  unfold Obligations.FlagsComeFromTheDestination
  refine ⟨fun i s t h => ⟨?none, fun r hr hn => ?operate, fun v hv => ?trap, fun r v hr hv hes => ?ready⟩,
    fun s t svc hes h => ?read, fun s t svc hes h => ?scan⟩
  case none => exact (exec_shape h).cond_eq
  case operate => exact (exec_shape h).flagIs_of_not_trap hr hn
  case trap =>
    obtain ⟨hshape, hf⟩ := (exec_shape h).of_trap hv
    rcases hshape.cond_cases with hcond | ⟨hread, hflag⟩
    · exact .inl hcond
    · exact .inr ⟨by rw [hf, if_pos hread], hflag⟩
  case ready =>
    obtain ⟨hshape, hf⟩ := (exec_shape h).of_trap hv
    rw [hr] at hf
    split at hf
    case isTrue hread =>
      cases hf
      obtain ⟨hcompletes, hleaves⟩ := hshape.cond_of_ready hes
      exact ⟨hcompletes hread, hleaves⟩
    case isFalse => cases hf
  case read =>
    rw [step_waiting hes] at h
    cases h
    obtain ⟨hcompletes, hleaves⟩ := (resumeRead_shape svc s).cond_of_ready rfl
    exact ⟨hcompletes (readVector_reads svc), hleaves⟩
  case scan =>
    rw [step_scanning hes] at h
    cases h
    rcases (resumeScan_shape svc s).cond_cases with hcond | ⟨hread, -⟩
    · exact hcond
    · exact absurd hread (scanVector_reads_not svc)

/-! ### Memory -/

theorem ExecShape.mem_eq {i : Instr} {s t : State} (h : ExecShape i s t) (hi : storesWord i = false) :
    t.mem = s.mem := by
  cases h with
  | writes dr v hw hf hn hs ht => rw [ht]; rfl
  | stores a v hst hf hn hs ht => rw [hi] at hst; cases hst
  | jumps target hc hf hn hs ht => rw [ht]; rfl
  | calls target hc hw hf hn hs ht => rw [ht]; rfl
  | halts hf hn hs ht => rw [ht]; rfl
  | traps v hv hw hf hs hst hc ht => exact ht.mem_eq

/-- Settles O28: of the shapes of an instruction only a store writes memory, and no service does. -/
theorem onlyStoresWriteMemory : Obligations.OnlyStoresWriteMemory := by
  unfold Obligations.OnlyStoresWriteMemory
  refine ⟨fun i s t hi h => (exec_shape h).mem_eq hi, fun s t hne h => ?_⟩
  rcases step_cases_of_not_ready hne h with ⟨v, hshape⟩ | rfl
  · exact hshape.mem_eq
  · rfl

/-- Settles O14: `flagOf` is the flag of its value. -/
theorem setccClassifiesTheValue : Obligations.SetccClassifiesTheValue := fun v _ => ⟨flagOf_flagIs v, rfl⟩

end Sys2Proof.Machine
end

section
/-! COND is read only by BR (10_state.md R30): every other meaning, given another COND, answers the same state, or the
same but for COND, which it leaves. -/
namespace Sys2Proof.Machine

/-- `s` with `c` in COND. -/
def State.withCond (c : BitVec 3) (s : State) : State := { s with cond := c }

@[simp] theorem withCond_mem (c : BitVec 3) (s : State) : (s.withCond c).mem = s.mem := rfl
@[simp] theorem reg_withCond (c : BitVec 3) (s : State) (q : Reg) : (s.withCond c).reg q = s.reg q := rfl

/-- A pass of a scan once its bytes, and whether it met a zero word, are found. -/
def finishPass (svc : ScanService) (found : List Byte × Bool) : State → State :=
  State.consoleWrite svc.vector found.1 fun t => if found.2 then t else t.setEs (.running (.scanning svc))

theorem scanBody_eq_finishPass (svc : ScanService) (bytesOf : Word → List Byte) (s : State) :
    scanBody svc bytesOf s = finishPass svc (scanWords bytesOf s.mem 65536 (s.reg 0)) s := rfl

/-- From `s`, the update `f` does not read COND: with `c` in it, `f` answers the same state where it sets COND, and
where it leaves COND the same state with `c` in it. -/
def CondBlind (c : BitVec 3) (f : State → State) (s : State) : Prop :=
  f (s.withCond c) = f s ∨ (f (s.withCond c) = (f s).withCond c ∧ (f s).cond = s.cond)

section
variable {c : BitVec 3} {s : State}

theorem CondBlind.setRegCc (r : Reg) (v : Word) : CondBlind c (State.setRegCc r v) s := .inl rfl

theorem CondBlind.setEs (e : EngineState) : CondBlind c (State.setEs e) s := .inr ⟨rfl, rfl⟩

theorem CondBlind.id : CondBlind c id s := .inr ⟨rfl, rfl⟩

theorem CondBlind.consoleWrite (v : Byte) (bs : List Byte) {k : State → State} (hk : CondBlind c k (s.wrote bs)) :
    CondBlind c (State.consoleWrite v bs k) s := by
  unfold CondBlind
  cases h : s.conOut.accepts bs.length with
  | true =>
    have h' : (s.withCond c).conOut.accepts bs.length = true := h
    rw [consoleWrite_ok h, consoleWrite_ok h']
    exact hk
  | false =>
    have h' : (s.withCond c).conOut.accepts bs.length = false := h
    rw [consoleWrite_fail h, consoleWrite_fail h']
    exact .inr ⟨rfl, rfl⟩

theorem CondBlind.consoleRead (svc : ReadService) {k : Byte → State → State} (hk : ∀ b, CondBlind c (k b) s.answered) :
    CondBlind c (State.consoleRead svc k) s := by
  unfold CondBlind
  rcases hin : s.conIn with _ | ⟨b | -, rest⟩
  · rw [consoleRead_wait hin, consoleRead_wait (s := s.withCond c) hin]
    exact .inr ⟨rfl, rfl⟩
  · rw [consoleRead_byte hin, consoleRead_byte (s := s.withCond c) hin]
    exact hk b
  · rw [consoleRead_ioError hin, consoleRead_ioError (s := s.withCond c) hin]
    exact .inr ⟨rfl, rfl⟩

/-! ### The services -/

theorem getcBody_condBlind : CondBlind c getcBody s :=
  .consoleRead .getc fun b => .setRegCc 0 (zext16 b)

theorem outBody_condBlind : CondBlind c outBody s :=
  .consoleWrite 0x21 [lowByte (s.reg 0)] .id

theorem inCharRead_condBlind : CondBlind c inCharRead s :=
  .consoleRead .inChar fun b => .consoleWrite 0x23 [b] (.setRegCc 0 (zext16 b))

theorem inCharBody_condBlind : CondBlind c inCharBody s :=
  .consoleWrite 0x23 s.cfg.inPrompt inCharRead_condBlind

theorem finishPass_condBlind (svc : ScanService) (found : List Byte × Bool) : CondBlind c (finishPass svc found) s := by
  refine .consoleWrite svc.vector found.1 ?_
  cases found.2 with
  | true => exact .id
  | false => exact .setEs (.running (.scanning svc))

theorem scanBody_condBlind (svc : ScanService) (bytesOf : Word → List Byte) : CondBlind c (scanBody svc bytesOf) s := by
  unfold CondBlind
  rw [scanBody_eq_finishPass, scanBody_eq_finishPass, withCond_mem, reg_withCond]
  exact finishPass_condBlind svc _

theorem haltBody_condBlind : CondBlind c haltBody s :=
  .consoleWrite 0x25 s.cfg.haltBanner (.setEs .halted)

theorem trapDispatch_condBlind (v : Byte) : CondBlind c (trapDispatch v) s := by
  unfold trapDispatch
  split_ifs
  · exact getcBody_condBlind
  · exact outBody_condBlind
  · exact scanBody_condBlind .puts putsBytes
  · exact inCharBody_condBlind
  · exact scanBody_condBlind .putsp putspBytes
  · exact haltBody_condBlind
  · exact .setEs _

/-- The link does not read COND, so a TRAP reads it only if its service does. -/
theorem CondBlind.afterLink {f : State → State} (h : CondBlind c f s.trapEntry) :
    CondBlind c (fun u => f u.trapEntry) s := h

end

/-! ### The instructions -/

/-- Every instruction but BR is an update that does not read COND. -/
theorem exec_condBlind {i : Instr} (hi : ∀ nzp off, i ≠ .br nzp off) (c : BitVec 3) (s : State) :
    ∃ f, (∀ u, exec i u = .next (f u)) ∧ CondBlind c f s := by
  cases i with
  | addReg dr a b => exact ⟨_, fun _ => rfl, .inl rfl⟩
  | addImm dr a b => exact ⟨_, fun _ => rfl, .inl rfl⟩
  | andReg dr a b => exact ⟨_, fun _ => rfl, .inl rfl⟩
  | andImm dr a b => exact ⟨_, fun _ => rfl, .inl rfl⟩
  | not dr a => exact ⟨_, fun _ => rfl, .inl rfl⟩
  | br nzp off => exact absurd rfl (hi nzp off)
  | ret => exact ⟨_, fun _ => rfl, .inr ⟨rfl, rfl⟩⟩
  | jmp b => exact ⟨_, fun _ => rfl, .inr ⟨rfl, rfl⟩⟩
  | jsr off => exact ⟨_, fun _ => rfl, .inr ⟨rfl, rfl⟩⟩
  | jsrr b => exact ⟨_, fun _ => rfl, .inr ⟨rfl, rfl⟩⟩
  | ld dr off => exact ⟨_, fun _ => rfl, .inl rfl⟩
  | ldi dr off => exact ⟨_, fun _ => rfl, .inl rfl⟩
  | ldr dr b off => exact ⟨_, fun _ => rfl, .inl rfl⟩
  | lea dr off => exact ⟨_, fun _ => rfl, .inl rfl⟩
  | st r off => exact ⟨_, fun _ => rfl, .inr ⟨rfl, rfl⟩⟩
  | sti r off => exact ⟨_, fun _ => rfl, .inr ⟨rfl, rfl⟩⟩
  | str r b off => exact ⟨_, fun _ => rfl, .inr ⟨rfl, rfl⟩⟩
  | getc => exact ⟨_, fun _ => rfl, .afterLink getcBody_condBlind⟩
  | out => exact ⟨_, fun _ => rfl, .afterLink outBody_condBlind⟩
  | puts => exact ⟨_, fun _ => rfl, .afterLink (scanBody_condBlind .puts putsBytes)⟩
  | inChar => exact ⟨_, fun _ => rfl, .afterLink inCharBody_condBlind⟩
  | putsp => exact ⟨_, fun _ => rfl, .afterLink (scanBody_condBlind .putsp putspBytes)⟩
  | halt => exact ⟨_, fun _ => rfl, .afterLink haltBody_condBlind⟩
  | trap v => exact ⟨_, fun _ => rfl, .afterLink (trapDispatch_condBlind v)⟩
  | rti => exact ⟨_, fun _ => rfl, .setEs .halted⟩
  | res => exact ⟨_, fun _ => rfl, .setEs .halted⟩

/-- Settles O27: the meaning is an update that does not read COND. -/
theorem onlyBranchesReadCond : Obligations.OnlyBranchesReadCond := by
  unfold Obligations.OnlyBranchesReadCond
  intro i s t c hi h
  obtain ⟨f, hf, hblind⟩ := exec_condBlind hi c s
  cases (hf s).symm.trans h
  refine ⟨f (s.withCond c), hf _, ?_⟩
  rcases hblind with hsets | ⟨hleaves, hcond⟩
  · rw [hsets]
    exact ⟨rfl, .inl rfl⟩
  · rw [hleaves]
    exact ⟨rfl, .inr ⟨hcond, rfl⟩⟩

end Sys2Proof.Machine
end

section
/-! GETC and IN: how they wait, how they fail, and how WAIT_INPUT ends (10_state.md R33, R38, 43_trap_services.md R182,
R183, R193). -/
namespace Sys2Proof.Machine

open Sys2Proof.Safety

/-- A TRAP that changes only ES and the console after its link leaves the rest. -/
theorem linksOnly_of_eq {s t : State}
    (h : t = { s.trapEntry with es := t.es, conIn := t.conIn, conOut := t.conOut, output := t.output }) :
    LinksOnly s t := by
  rw [h]
  exact ⟨reg_setReg_self s 7 s.pc, fun _ hq => reg_setReg_ne s s.pc hq, rfl, rfl, fun _ => rfl, rfl, rfl⟩

/-- `zext_16` of a byte is its value as a word (R12). -/
theorem zext16_eq_ofNat (b : Byte) : zext16 b = BitVec.ofNat 16 b.toNat := (BitVec.ofNat_toNat 16 b).symm

/-- The flag a register is written with is that of the value it then holds (R29). -/
theorem setRegCc_flagIs (s : State) (r : Reg) (v : Word) :
    FlagIs ((s.setRegCc r v).reg r) (s.setRegCc r v).cond := by
  simpa using flagOf_flagIs v

/-! ### The TRAPs -/

theorem exec_getc (s : State) : exec .getc s = .next (getcBody s.trapEntry) := rfl

theorem exec_inChar (s : State) : exec .inChar s = .next (inCharBody s.trapEntry) := rfl

/-- Settles O45: the read of GETC, after the link, waits or fails. -/
theorem getcWaitsOrFails : Obligations.GetcWaitsOrFails := by
  unfold Obligations.GetcWaitsOrFails
  refine fun s => ⟨fun hin => ?waits, fun rest hin => ?fails⟩
  case waits =>
    exact ⟨_, (exec_getc s).trans (congrArg _ (consoleRead_wait hin)), rfl, linksOnly_of_eq rfl, rfl, rfl, rfl⟩
  case fails =>
    exact ⟨_, (exec_getc s).trans (congrArg _ (consoleRead_ioError hin)), rfl, linksOnly_of_eq rfl,
      congrArg List.tail hin, rfl, rfl⟩

/-- IN whose prompt is accepted is its read, after the link and the prompt. -/
theorem exec_inChar_prompted {s : State} (h : s.conOut.accepts s.cfg.inPrompt.length = true) :
    exec .inChar s = .next (inCharRead (s.trapEntry.wrote s.cfg.inPrompt)) :=
  (exec_inChar s).trans (congrArg _ (inCharBody_prompted h))

/-- Settles O51: IN ends at its prompt, at its read, or at its echo. -/
theorem inWaitsOrFails : Obligations.InWaitsOrFails := by
  unfold Obligations.InWaitsOrFails
  refine fun s => ⟨fun hin hout => ?waits, fun rest hin hout => ?readFails, fun m hout hm => ?promptFails,
    fun b rest hin hout => ?echoFails⟩
  case waits =>
    exact ⟨_, (exec_inChar_prompted hout).trans (congrArg _ (consoleRead_wait hin)), rfl, linksOnly_of_eq rfl, hin, rfl,
      rfl⟩
  case readFails =>
    exact ⟨_, (exec_inChar_prompted hout).trans (congrArg _ (consoleRead_ioError hin)), rfl, linksOnly_of_eq rfl,
      congrArg List.tail hin, rfl⟩
  case promptFails =>
    exact ⟨_, (exec_inChar s).trans (congrArg _ (inCharBody_promptFails hout hm)), rfl, linksOnly_of_eq rfl, rfl, rfl⟩
  case echoFails =>
    have hprompt : s.conOut.accepts s.cfg.inPrompt.length = true := by simp [hout]
    have hecho : (s.trapEntry.wrote s.cfg.inPrompt).conOut = .failingAfter 0 := by simp [hout]
    exact ⟨_, (exec_inChar_prompted hprompt).trans (congrArg _ (inCharRead_echoFails hin hecho)), rfl,
      linksOnly_of_eq rfl, congrArg List.tail hin, List.append_nil _⟩

/-! ### WAIT_INPUT -/

/-- Settles O52: going on with a read ends as the read itself does, from the state that is ready again. -/
theorem waitInputEndsByAnAnswer : Obligations.WaitInputEndsByAnAnswer := by
  unfold Obligations.WaitInputEndsByAnAnswer
  intro s svc hes
  rw [step_waiting hes]
  refine ⟨fun hin => ?noAnswer, fun b rest hin hout => ?byte, fun rest hin => ?fails,
    fun b rest hsvc hin hout => ?echoFails⟩
  case noAnswer => rw [resumeRead_noAnswer hes hin]
  case byte =>
    cases svc with
    | getc =>
      exact ⟨_, congrArg _ (consoleRead_byte (s := s.trapReturn) hin),
        (reg_setReg_self _ 0 _).trans (zext16_eq_ofNat b),
        setRegCc_flagIs _ 0 _,
        fun _ hq => reg_setReg_ne _ _ hq, rfl, fun _ => rfl, rfl, rfl, rfl, congrArg List.tail hin, rfl,
        (List.append_nil _).symm⟩
    | inChar =>
      exact ⟨_, congrArg _ (inCharRead_byte (s := s.trapReturn) hin (hout rfl)),
        (reg_setReg_self _ 0 _).trans (zext16_eq_ofNat b),
        setRegCc_flagIs _ 0 _,
        fun _ hq => reg_setReg_ne _ _ hq, rfl, fun _ => rfl, rfl, rfl, rfl, congrArg List.tail hin, rfl, rfl⟩
  case fails =>
    exact ⟨_, congrArg _ (resumeRead_ioError svc hin), rfl, fun _ => rfl, rfl, rfl, fun _ => rfl, rfl, rfl,
      congrArg List.tail hin, rfl, rfl⟩
  case echoFails =>
    subst hsvc
    have h := inCharRead_echoFails (s := s.trapReturn) hin hout
    exact ⟨_, congrArg _ h, rfl, fun _ => rfl, rfl, rfl, fun _ => rfl, rfl, rfl, congrArg List.tail hin,
      by simp [hout], List.append_nil _⟩

end Sys2Proof.Machine
end

section
/-! LOAD, STATUS and INSPECT in each engine state (10_state.md R40 to R42). -/
namespace Sys2Proof.Machine

/-- INSPECT gives the values of a run that has ended (R42). -/
theorem inspect_of_ended {s : State} (h : s.ended = true) :
    (∀ r, s.inspectReg r = some (s.reg r)) ∧ s.inspectPc = some s.pc ∧ s.inspectCond = some s.cond ∧
      ∀ a, s.inspectMem a = some (s.memRead a) :=
  ⟨fun _ => if_pos h, if_pos h, if_pos h, fun _ => if_pos h⟩

/-- INSPECT gives nothing before the end (R42, I17). -/
theorem inspect_of_not_ended {s : State} (h : s.ended = false) :
    (∀ r, s.inspectReg r = none) ∧ s.inspectPc = none ∧ s.inspectCond = none ∧ ∀ a, s.inspectMem a = none := by
  have h' : ¬s.ended = true := by rw [h]; exact Bool.false_ne_true
  exact ⟨fun _ => if_neg h', if_neg h', if_neg h', fun _ => if_neg h'⟩

/-- Settles O6: each port reads the engine state alone. -/
theorem portsFollowTheEngineState : Obligations.PortsFollowTheEngineState := by
  unfold Obligations.PortsFollowTheEngineState
  refine fun s => ⟨load_ignored, fun h => ?created, fun act h => ?running, fun h => ?halted, fun v a h => ?badVector,
    fun p v a h => ?ioError, fun h => inspect_of_ended ?ended, fun h => inspect_of_not_ended ?notEnded⟩
  case created => unfold State.status; rw [h]
  case running => unfold State.status; rw [h]
  case halted => unfold State.status; rw [h]
  case badVector => unfold State.status; rw [h]; rfl
  case ioError => unfold State.status; rw [h]; rfl
  case ended => unfold State.ended; rcases h with h | ⟨f, h⟩ <;> rw [h]
  case notEnded => unfold State.ended; rcases h with h | ⟨act, h⟩ <;> rw [h]

end Sys2Proof.Machine
end

section
/-! Stores: a memory write as the effect of a store, the addresses ST, STI and STR compute, and the next fetch after one
(20_memory.md R53, R61, R64). -/
namespace Sys2Proof.Machine

open Sys2Proof.Safety

/-- Settles O15: a read after a write, at the address written and at another. -/
theorem memoryWriteThenRead : Obligations.MemoryWriteThenRead := by
  unfold Obligations.MemoryWriteThenRead
  intro s a b v hwf
  exact ⟨Memory.read_write_self hwf a v, memRead_memWrite_ne s v⟩

/-- A memory write does what a store does, and nothing else. -/
theorem stores_memWrite {s : State} (hwf : s.mem.wf = true) (a v : Word) : Stores a v s (s.memWrite a v) where
  stored := Memory.read_write_self hwf a v
  mem _ hb := memRead_memWrite_ne s v hb
  regs _ := rfl
  cond := rfl
  pc := rfl
  console := ⟨rfl, rfl, rfl⟩
  engine := ⟨rfl, rfl, rfl⟩

/-! ### Addresses -/

/-- Adding a sign-extended offset adds its signed value, modulo 65536 (R11, R175). -/
theorem add_signExtend_eq_ofInt {w : Nat} (x : Word) (off : BitVec w) :
    x + off.signExtend 16 = BitVec.ofInt 16 (x.toInt + off.toInt) := by
  rw [BitVec.ofInt_add, BitVec.ofInt_toInt, BitVec.signExtend]

theorem pcRel9_eq_ofInt (off : BitVec 9) (s : State) :
    s.pcRel9 off = BitVec.ofInt 16 (s.pc.toInt + off.toInt) := add_signExtend_eq_ofInt s.pc off

theorem indirect9_eq_ofInt (off : BitVec 9) (s : State) :
    s.indirect9 off = s.memRead (BitVec.ofInt 16 (s.pc.toInt + off.toInt)) :=
  congrArg (State.memRead · s) (pcRel9_eq_ofInt off s)

theorem basePlus6_eq_ofInt (baseR : Reg) (off : BitVec 6) (s : State) :
    s.basePlus6 baseR off = BitVec.ofInt 16 ((s.reg baseR).toInt + off.toInt) :=
  add_signExtend_eq_ofInt (s.reg baseR) off

/-! ### The three stores -/

theorem exec_st (sr : Reg) (off : BitVec 9) (s : State) :
    exec (.st sr off) s = .next (s.memWrite (BitVec.ofInt 16 (s.pc.toInt + off.toInt)) (s.reg sr)) := by
  rw [← pcRel9_eq_ofInt]; rfl

theorem exec_sti (sr : Reg) (off : BitVec 9) (s : State) :
    exec (.sti sr off) s =
      .next (s.memWrite (s.memRead (BitVec.ofInt 16 (s.pc.toInt + off.toInt))) (s.reg sr)) := by
  rw [← indirect9_eq_ofInt]; rfl

theorem exec_str (sr baseR : Reg) (off : BitVec 6) (s : State) :
    exec (.str sr baseR off) s =
      .next (s.memWrite (BitVec.ofInt 16 ((s.reg baseR).toInt + off.toInt)) (s.reg sr)) := by
  rw [← basePlus6_eq_ofInt]; rfl

/-! ### The next fetch -/

/-- The fetch after a write to the word at pc fetches the value written. -/
theorem fetch_memWrite_pc {s : State} (hwf : s.mem.wf = true) (v : Word) :
    (s.memWrite s.pc v).fetch = { s.memWrite s.pc v with ir := v, pc := s.pc + 1 } := by
  have hread : (s.memWrite s.pc v).memRead s.pc = v := Memory.read_write_self hwf s.pc v
  unfold State.fetch
  rw [memWrite_pc, hread]

/-- After a write to the word at pc, a step of a ready machine runs the value written. -/
theorem step_memWrite_pc {s : State} (hwf : s.mem.wf = true) (hes : s.es = .running .ready) (v : Word) :
    step (s.memWrite s.pc v) = exec (decode v) { s.memWrite s.pc v with ir := v, pc := s.pc + 1 } := by
  have hready : (s.memWrite s.pc v).es = .running .ready := hes
  rw [step_ready hready, fetch_memWrite_pc hwf]

/-- Settles O41: each of the three stores is a memory write to its address from the fetched state, and a write to the
word at pc is what the next step runs. -/
theorem storeIsSeenByTheNextFetch : Obligations.StoreIsSeenByTheNextFetch := by
  unfold Obligations.StoreIsSeenByTheNextFetch
  intro s sr a hwf hes hstore
  have hstep : step s = .next (s.fetch.memWrite a (s.reg sr)) := by
    rw [step_ready hes, fetch_ir_eq]
    rcases hstore with ⟨off, hdec, rfl⟩ | ⟨off, hdec, rfl⟩ | ⟨baseR, off, hdec, rfl⟩
    · rw [hdec]; exact exec_st sr off s.fetch
    · rw [hdec]; exact exec_sti sr off s.fetch
    · rw [hdec]; exact exec_str sr baseR off s.fetch
  refine ⟨_, hstep, stores_memWrite (s := s.fetch) hwf a (s.reg sr), rfl, fun ha => ?next⟩
  case next =>
    subst ha
    have hpc : s.pc + 2 = s.fetch.pc + 1 := (BitVec.add_assoc s.pc 1 1).symm
    rw [hpc]
    exact step_memWrite_pc (s := s.fetch) hwf hes (s.reg sr)

end Sys2Proof.Machine
end

section
/-! Decoding said once (30_encoding.md R83 to R96): which fields of a word make which instruction, what the fields of an
encoded word are, and what two words that agree under a mask share. -/
namespace Sys2Proof

open Sys2Proof.Machine

/-! ### Which instruction a word holds -/

/-- The instruction a word's opcode, mode and long flag select, with its operands read from the word (R83, R86, R89). -/
inductive DecodesTo (w : Word) : Instr → Prop where
  | br (hop : fieldOp w = 0b0000#4) : DecodesTo w (.br (fieldNzp w) (fieldPCoffset9 w))
  | addImm (hop : fieldOp w = 0b0001#4) (hmode : fieldMode w = true) :
      DecodesTo w (.addImm (fieldDR w) (fieldBaseR w) (fieldImm5 w))
  | addReg (hop : fieldOp w = 0b0001#4) (hmode : fieldMode w = false) :
      DecodesTo w (.addReg (fieldDR w) (fieldBaseR w) (fieldSR2 w))
  | ld (hop : fieldOp w = 0b0010#4) : DecodesTo w (.ld (fieldDR w) (fieldPCoffset9 w))
  | st (hop : fieldOp w = 0b0011#4) : DecodesTo w (.st (fieldDR w) (fieldPCoffset9 w))
  | jsr (hop : fieldOp w = 0b0100#4) (hlong : fieldLong w = true) : DecodesTo w (.jsr (fieldPCoffset11 w))
  | jsrr (hop : fieldOp w = 0b0100#4) (hlong : fieldLong w = false) : DecodesTo w (.jsrr (fieldBaseR w))
  | andImm (hop : fieldOp w = 0b0101#4) (hmode : fieldMode w = true) :
      DecodesTo w (.andImm (fieldDR w) (fieldBaseR w) (fieldImm5 w))
  | andReg (hop : fieldOp w = 0b0101#4) (hmode : fieldMode w = false) :
      DecodesTo w (.andReg (fieldDR w) (fieldBaseR w) (fieldSR2 w))
  | ldr (hop : fieldOp w = 0b0110#4) : DecodesTo w (.ldr (fieldDR w) (fieldBaseR w) (fieldOffset6 w))
  | str (hop : fieldOp w = 0b0111#4) : DecodesTo w (.str (fieldDR w) (fieldBaseR w) (fieldOffset6 w))
  | rti (hop : fieldOp w = 0b1000#4) : DecodesTo w .rti
  | not (hop : fieldOp w = 0b1001#4) : DecodesTo w (.not (fieldDR w) (fieldBaseR w))
  | ldi (hop : fieldOp w = 0b1010#4) : DecodesTo w (.ldi (fieldDR w) (fieldPCoffset9 w))
  | sti (hop : fieldOp w = 0b1011#4) : DecodesTo w (.sti (fieldDR w) (fieldPCoffset9 w))
  | jmp (hop : fieldOp w = 0b1100#4) : DecodesTo w (decodeJmp (fieldBaseR w))
  | res (hop : fieldOp w = 0b1101#4) : DecodesTo w .res
  | lea (hop : fieldOp w = 0b1110#4) : DecodesTo w (.lea (fieldDR w) (fieldPCoffset9 w))
  | trap (hop : fieldOp w = 0b1111#4) : DecodesTo w (decodeTrap (fieldTrapvect8 w))

theorem DecodesTo.decode_eq {w : Word} {i : Instr} (h : DecodesTo w i) : decode w = i := by
  unfold decode
  cases h with
  | addImm hop hmode | addReg hop hmode | andImm hop hmode | andReg hop hmode => simp only [hop, hmode]; rfl
  | jsr hop hlong | jsrr hop hlong => simp only [hop, hlong]; rfl
  | br hop | ld hop | st hop | ldr hop | str hop | rti hop | not hop | ldi hop | sti hop | jmp hop | res hop
  | lea hop => simp only [hop]
  | trap hop => simp only [hop]; rfl

theorem decodesTo_decode (w : Word) : DecodesTo w (decode w) := by
  unfold decode
  split
  next hop => exact .br hop
  next hop =>
    split
    next hmode => exact .addImm hop hmode
    next hmode => exact .addReg hop (eq_false_of_ne_true hmode)
  next hop => exact .ld hop
  next hop => exact .st hop
  next hop =>
    split
    next hlong => exact .jsr hop hlong
    next hlong => exact .jsrr hop (eq_false_of_ne_true hlong)
  next hop =>
    split
    next hmode => exact .andImm hop hmode
    next hmode => exact .andReg hop (eq_false_of_ne_true hmode)
  next hop => exact .ldr hop
  next hop => exact .str hop
  next hop => exact .rti hop
  next hop => exact .not hop
  next hop => exact .ldi hop
  next hop => exact .sti hop
  next hop => exact .jmp hop
  next hop => exact .res hop
  next hop => exact .lea hop
  next =>
    have hop : fieldOp w = 0b1111#4 := by
      generalize fieldOp w = op at *
      revert op
      decide
    exact .trap hop

/-! ### The rows that have a more specific one (R96) -/

theorem decodeJmp_of_ne {b : Reg} (h : b ≠ 7) : decodeJmp b = .jmp b := if_neg h

theorem encode_decodeJmp (b : Reg) : encode (decodeJmp b) = encodeBase 0b1100#4 b := by
  unfold decodeJmp
  split
  next h => rw [h]; rfl
  next => rfl

theorem usedBits_decodeJmp (b : Reg) : (decodeJmp b).usedBits = 0xF1C0 := by
  unfold decodeJmp
  split <;> rfl

theorem decodeJmp_wellFormed (b : Reg) : (decodeJmp b).wellFormed = true := by
  unfold decodeJmp
  split
  next => rfl
  next h => exact bne_iff_ne.mpr h

theorem encode_decodeTrap (v : Byte) : encode (decodeTrap v) = encodeTrap v := by
  unfold decodeTrap
  split_ifs <;> subst_vars <;> rfl

theorem usedBits_decodeTrap (v : Byte) : (decodeTrap v).usedBits = 0xF0FF := by
  unfold decodeTrap
  split_ifs <;> rfl

theorem decodeTrap_wellFormed (v : Byte) : (decodeTrap v).wellFormed = true := by
  cases h : recognisedVector v with
  | false => rw [decodeTrap_of_not_recognised h, Instr.wellFormed, h]; rfl
  | true =>
    simp only [recognisedVector, Bool.or_eq_true, beq_iff_eq] at h
    rcases h with ((((rfl | rfl) | rfl) | rfl) | rfl) | rfl <;> rfl

/-! ### Words that agree under a mask -/

section Agree
variable {w w' m : Word}

/-- Words that agree under a mask share every field the mask keeps. -/
theorem extract_congr (h : w &&& m = w' &&& m) {lo len : Nat} (hm : m.extractLsb' lo len = BitVec.allOnes len) :
    w.extractLsb' lo len = w'.extractLsb' lo len := by
  have hfield := congrArg (BitVec.extractLsb' lo len) h
  rwa [extract_and, extract_and, hm, BitVec.and_allOnes, BitVec.and_allOnes] at hfield

theorem getLsbD_congr (h : w &&& m = w' &&& m) {k : Nat} (hm : m.getLsbD k = true) : w.getLsbD k = w'.getLsbD k := by
  have hbit := congrArg (BitVec.getLsbD · k) h
  simpa [hm] using hbit

theorem eq_of_agree_everywhere (h : w &&& 0xFFFF = w' &&& 0xFFFF) : w = w' := by
  rwa [show (0xFFFF : Word) = BitVec.allOnes 16 from rfl, BitVec.and_allOnes, BitVec.and_allOnes] at h

/-- Words agree under the smaller mask when they agree under the larger. -/
theorem agree_mono {n : Word} (h : w &&& m = w' &&& m) (hn : m &&& n = n) : w &&& n = w' &&& n := by
  rw [← hn, ← BitVec.and_assoc, h, BitVec.and_assoc]

end Agree

/-- Appended fields agree under appended masks when each does under its own. -/
theorem append_agree {n k : Nat} {x x' a : BitVec n} {y y' b : BitVec k} (hx : x &&& a = x' &&& a)
    (hy : y &&& b = y' &&& b) : (x ++ y) &&& (a ++ b) = (x' ++ y') &&& (a ++ b) := by
  rw [BitVec.and_append, BitVec.and_append, hx, hy]

theorem agree_nowhere {n : Nat} (x x' : BitVec n) : x &&& 0#n = x' &&& 0#n :=
  BitVec.and_zero.trans BitVec.and_zero.symm

/-! ### The flags of R89 as bits of a field -/

/-- A field of one bit. -/
theorem extract_one (w : Word) (k : Nat) : w.extractLsb' k 1 = BitVec.ofBool (w.getLsbD k) := by
  apply BitVec.eq_of_getLsbD_eq
  intro i hi
  obtain rfl : i = 0 := by omega
  simp

theorem mode_bit (w : Word) : w.extractLsb' 5 1 = BitVec.ofBool (fieldMode w) := extract_one w 5

theorem long_bit (w : Word) : w.extractLsb' 11 1 = BitVec.ofBool (fieldLong w) := extract_one w 11

/-- The long flag is the top bit of bits 11 to 9. -/
theorem fieldLong_eq_bit (w : Word) : fieldLong w = (w.extractLsb' 9 3).getLsbD 2 :=
  (BitVec.getLsbD_extractLsb' 9 3 w 2).symm

/-! ### The fields of the formats (R87) -/

section Formats
variable (op : BitVec 4) (r b q : Reg)

@[simp] theorem fieldOp_encodePc9 (off : BitVec 9) : fieldOp (encodePc9 op r off) = op := op_of_pc9 _ _ _
@[simp] theorem fieldDR_encodePc9 (off : BitVec 9) : fieldDR (encodePc9 op r off) = r :=
  congrArg BitVec.toFin (bits11to9_of_pc9 op (regBits r) off)
@[simp] theorem fieldPCoffset9_encodePc9 (off : BitVec 9) : fieldPCoffset9 (encodePc9 op r off) = off :=
  offset_of_pc9 _ _ _

@[simp] theorem fieldOp_encodeBase6 (off : BitVec 6) : fieldOp (encodeBase6 op r b off) = op := op_of_base6 _ _ _ _
@[simp] theorem fieldDR_encodeBase6 (off : BitVec 6) : fieldDR (encodeBase6 op r b off) = r :=
  congrArg BitVec.toFin (bits11to9_of_base6 op (regBits r) (regBits b) off)
@[simp] theorem fieldBaseR_encodeBase6 (off : BitVec 6) : fieldBaseR (encodeBase6 op r b off) = b :=
  congrArg BitVec.toFin (bits8to6_of_base6 op (regBits r) (regBits b) off)
@[simp] theorem fieldOffset6_encodeBase6 (off : BitVec 6) : fieldOffset6 (encodeBase6 op r b off) = off :=
  offset_of_base6 _ _ _ _

@[simp] theorem fieldOp_encodeOpi (imm : BitVec 5) : fieldOp (encodeOpi op r b imm) = op := op_of_imm5 _ _ _ _ _
@[simp] theorem fieldDR_encodeOpi (imm : BitVec 5) : fieldDR (encodeOpi op r b imm) = r :=
  congrArg BitVec.toFin (bits11to9_of_imm5 op (regBits r) (regBits b) 1 imm)
@[simp] theorem fieldBaseR_encodeOpi (imm : BitVec 5) : fieldBaseR (encodeOpi op r b imm) = b :=
  congrArg BitVec.toFin (bits8to6_of_imm5 op (regBits r) (regBits b) 1 imm)
@[simp] theorem fieldMode_encodeOpi (imm : BitVec 5) : fieldMode (encodeOpi op r b imm) = true :=
  mode_of_imm5 _ _ _ _ _
@[simp] theorem fieldImm5_encodeOpi (imm : BitVec 5) : fieldImm5 (encodeOpi op r b imm) = imm :=
  imm_of_imm5 _ _ _ _ _

/-- Format OPR is format OPI's with mode 0 and SR2 in the low bits of imm5's place. -/
theorem encodeOpr_eq_imm5 :
    encodeOpr op r b q = op ++ regBits r ++ regBits b ++ 0b0#1 ++ (0b00#2 ++ regBits q) := by
  have hlow : (0b0#1 ++ (0b00#2 ++ regBits q)) = 0b000#3 ++ regBits q := by revert q; decide
  simp only [encodeOpr, BitVec.append_assoc (x₂ := 0b000#3), BitVec.append_assoc (x₂ := 0b0#1), hlow,
    BitVec.cast_eq]

@[simp] theorem fieldOp_encodeOpr : fieldOp (encodeOpr op r b q) = op := by
  rw [encodeOpr_eq_imm5, op_of_imm5]
@[simp] theorem fieldDR_encodeOpr : fieldDR (encodeOpr op r b q) = r := by
  rw [encodeOpr_eq_imm5, fieldDR, bits11to9_of_imm5, regBits_toFin]
@[simp] theorem fieldBaseR_encodeOpr : fieldBaseR (encodeOpr op r b q) = b := by
  rw [encodeOpr_eq_imm5, fieldBaseR, bits8to6_of_imm5, regBits_toFin]
@[simp] theorem fieldMode_encodeOpr : fieldMode (encodeOpr op r b q) = false := by
  rw [encodeOpr_eq_imm5, mode_of_imm5]; rfl
@[simp] theorem fieldSR2_encodeOpr : fieldSR2 (encodeOpr op r b q) = q :=
  congrArg BitVec.toFin ((extract_append_low _ (regBits q) 0 3 (by decide)).trans (extract_whole (regBits q)))

@[simp] theorem fieldOp_encodeBase : fieldOp (encodeBase op b) = op := op_of_base6 _ _ _ _
@[simp] theorem fieldBaseR_encodeBase : fieldBaseR (encodeBase op b) = b :=
  congrArg BitVec.toFin (bits8to6_of_base6 op 0b000#3 (regBits b) 0b000000#6)
@[simp] theorem fieldLong_encodeBase : fieldLong (encodeBase op b) = false := by
  rw [fieldLong_eq_bit, encodeBase, bits11to9_of_base6]; rfl

@[simp] theorem fieldOp_encodeTrap (v : Byte) : fieldOp (encodeTrap v) = 0b1111#4 :=
  (extract_append_high (0b1111#4 ++ 0b0000#4) v 4 4).trans rfl
@[simp] theorem fieldTrapvect8_encodeTrap (v : Byte) : fieldTrapvect8 (encodeTrap v) = v :=
  (extract_append_low _ v 0 8 (by decide)).trans (extract_whole v)

end Formats

/-! ### A word is the encoding of its fields, up to the bits no field uses (R90) -/

section OfWord
variable {w : Word} {op : BitVec 4}

theorem encodePc9_fields (hop : fieldOp w = op) : encodePc9 op (fieldDR w) (fieldPCoffset9 w) = w := by
  subst hop; exact word_of_pc9 w

theorem encodeBase6_fields (hop : fieldOp w = op) :
    encodeBase6 op (fieldDR w) (fieldBaseR w) (fieldOffset6 w) = w := by
  subst hop; exact word_of_base6 w

theorem encodeOpi_fields (hop : fieldOp w = op) (hmode : fieldMode w = true) :
    encodeOpi op (fieldDR w) (fieldBaseR w) (fieldImm5 w) = w := by
  have hw := word_of_imm5 w
  rw [mode_bit, hmode, hop] at hw
  exact hw

/-- NOT's format, whatever its low six bits. -/
theorem encodeBase6_fields_agree (hop : fieldOp w = op) (off : BitVec 6) :
    encodeBase6 op (fieldDR w) (fieldBaseR w) off &&& 0xFFC0 = w &&& 0xFFC0 :=
  (append_agree (a := 0x3FF#10) rfl (agree_nowhere off (fieldOffset6 w))).trans
    (congrArg (· &&& 0xFFC0) (encodeBase6_fields hop))

theorem encodeOpr_fields_agree (hop : fieldOp w = op) (hmode : fieldMode w = false) :
    encodeOpr op (fieldDR w) (fieldBaseR w) (fieldSR2 w) &&& 0xFFE7 = w &&& 0xFFE7 := by
  have himm : w.extractLsb' 3 2 ++ regBits (fieldSR2 w) = fieldImm5 w := append_fields w 0 3 2
  have hw := word_of_imm5 w
  rw [mode_bit, hmode, hop, ← himm] at hw
  rw [encodeOpr_eq_imm5]
  exact (append_agree (a := 0x7FF#11) rfl (append_agree (b := 0b111#3) (agree_nowhere 0b00#2 _) rfl)).trans
    (congrArg (· &&& 0xFFE7) hw)

/-- The format of JMP and JSRR, when `m` is what the mask keeps of bits 11 to 9. -/
theorem encodeBase_fields_agree (hop : fieldOp w = op) {m : BitVec 3}
    (hhigh : 0b000#3 &&& m = w.extractLsb' 9 3 &&& m) :
    encodeBase op (fieldBaseR w) &&& (0b1111#4 ++ m ++ 0b111#3 ++ 0b000000#6) =
      w &&& (0b1111#4 ++ m ++ 0b111#3 ++ 0b000000#6) := by
  have hw := word_of_base6 w
  rw [hop] at hw
  exact (append_agree (append_agree (append_agree rfl hhigh) rfl) (agree_nowhere 0b000000#6 _)).trans
    (congrArg (· &&& (0b1111#4 ++ m ++ 0b111#3 ++ 0b000000#6)) hw)

theorem encodeJmp_fields_agree (hop : fieldOp w = op) : encodeBase op (fieldBaseR w) &&& 0xF1C0 = w &&& 0xF1C0 :=
  encodeBase_fields_agree hop (agree_nowhere _ _)

theorem encodeJsrr_fields_agree (hop : fieldOp w = op) (hlong : fieldLong w = false) :
    encodeBase op (fieldBaseR w) &&& 0xF9C0 = w &&& 0xF9C0 := by
  have hbits : w.extractLsb' 11 1 ++ w.extractLsb' 9 2 = w.extractLsb' 9 3 := append_fields w 9 2 1
  rw [long_bit, hlong] at hbits
  refine encodeBase_fields_agree hop (m := 0b1#1 ++ 0b00#2) ?_
  rw [← hbits]
  exact append_agree (x := 0b0#1) rfl (agree_nowhere 0b00#2 _)

theorem word_of_trap (w : Word) : fieldOp w ++ w.extractLsb' 8 4 ++ fieldTrapvect8 w = w := by
  have hhigh : fieldOp w ++ w.extractLsb' 8 4 = w.extractLsb' 8 8 := append_fields w 8 4 4
  rw [hhigh]
  exact (append_fields w 0 8 8).trans (extract_whole w)

theorem encodeTrap_fields_agree (hop : fieldOp w = 0b1111#4) :
    encodeTrap (fieldTrapvect8 w) &&& 0xF0FF = w &&& 0xF0FF := by
  have hw := word_of_trap w
  rw [hop] at hw
  exact (append_agree (b := 0xFF#8) (append_agree (a := 0b1111#4) rfl (agree_nowhere 0b0000#4 _)) rfl).trans
    (congrArg (· &&& 0xF0FF) hw)

end OfWord

/-! ### Every word is a word of its instruction -/

theorem DecodesTo.wellFormed {w : Word} {i : Instr} (h : DecodesTo w i) : i.wellFormed = true := by
  cases h with
  | jmp hop => exact decodeJmp_wellFormed _
  | trap hop => exact decodeTrap_wellFormed _
  | _ => rfl

/-- The word of the instruction that `w` holds agrees with `w` on every bit some field uses (R90). -/
theorem DecodesTo.encode_agree {w : Word} {i : Instr} (h : DecodesTo w i) :
    encode i &&& i.usedBits = w &&& i.usedBits := by
  cases h with
  | br hop =>
    have hw := word_of_pc9 w
    rw [hop] at hw
    exact congrArg (· &&& 0xFFFF) hw
  | jsr hop hlong =>
    have hw := word_of_jsr w
    rw [hop, long_bit, hlong] at hw
    exact congrArg (· &&& 0xFFFF) hw
  | ld hop | st hop | ldi hop | sti hop | lea hop => exact congrArg (· &&& 0xFFFF) (encodePc9_fields hop)
  | ldr hop | str hop => exact congrArg (· &&& 0xFFFF) (encodeBase6_fields hop)
  | addImm hop hmode | andImm hop hmode => exact congrArg (· &&& 0xFFFF) (encodeOpi_fields hop hmode)
  | addReg hop hmode | andReg hop hmode => exact encodeOpr_fields_agree hop hmode
  | not hop => exact encodeBase6_fields_agree hop _
  | jsrr hop hlong => exact encodeJsrr_fields_agree hop hlong
  | jmp hop =>
    rw [encode_decodeJmp, usedBits_decodeJmp]
    exact encodeJmp_fields_agree hop
  | trap hop =>
    rw [encode_decodeTrap, usedBits_decodeTrap]
    exact encodeTrap_fields_agree hop
  | rti hop | res hop => exact (Laws.EncodedRow.row_of_op hop).symm

/-- Settles O8: the two facts of what `w` decodes to. -/
theorem encodeKeepsTheUsedBits : Obligations.EncodeKeepsTheUsedBits := fun w =>
  ⟨(decodesTo_decode w).wellFormed, (decodesTo_decode w).encode_agree⟩

/-! ### The instruction of a word, from the bits its fields use -/

section FieldsAgree
variable {w w' m : Word} (h : w &&& m = w' &&& m)
include h

theorem fieldOp_congr (hm : fieldOp m = BitVec.allOnes 4) : fieldOp w = fieldOp w' := extract_congr h hm

theorem fieldDR_congr (hm : m.extractLsb' 9 3 = BitVec.allOnes 3) : fieldDR w = fieldDR w' :=
  congrArg BitVec.toFin (extract_congr h hm)

theorem fieldBaseR_congr (hm : m.extractLsb' 6 3 = BitVec.allOnes 3) : fieldBaseR w = fieldBaseR w' :=
  congrArg BitVec.toFin (extract_congr h hm)

theorem fieldSR2_congr (hm : m.extractLsb' 0 3 = BitVec.allOnes 3) : fieldSR2 w = fieldSR2 w' :=
  congrArg BitVec.toFin (extract_congr h hm)

end FieldsAgree

/-! What a word that agrees with a word of a format on the used bits reads as. -/

theorem fields_of_pc9_agree {w : Word} {op : BitVec 4} {r : Reg} {off : BitVec 9}
    (h : w &&& 0xFFFF = encodePc9 op r off &&& 0xFFFF) :
    fieldOp w = op ∧ fieldDR w = r ∧ fieldPCoffset9 w = off := by
  obtain rfl := eq_of_agree_everywhere h
  exact ⟨fieldOp_encodePc9 .., fieldDR_encodePc9 .., fieldPCoffset9_encodePc9 ..⟩

theorem fields_of_base6_agree {w : Word} {op : BitVec 4} {r b : Reg} {off : BitVec 6}
    (h : w &&& 0xFFFF = encodeBase6 op r b off &&& 0xFFFF) :
    fieldOp w = op ∧ fieldDR w = r ∧ fieldBaseR w = b ∧ fieldOffset6 w = off := by
  obtain rfl := eq_of_agree_everywhere h
  exact ⟨fieldOp_encodeBase6 .., fieldDR_encodeBase6 .., fieldBaseR_encodeBase6 .., fieldOffset6_encodeBase6 ..⟩

theorem fields_of_opi_agree {w : Word} {op : BitVec 4} {dr sr1 : Reg} {imm5 : BitVec 5}
    (h : w &&& 0xFFFF = encodeOpi op dr sr1 imm5 &&& 0xFFFF) :
    fieldOp w = op ∧ fieldMode w = true ∧ fieldDR w = dr ∧ fieldBaseR w = sr1 ∧ fieldImm5 w = imm5 := by
  obtain rfl := eq_of_agree_everywhere h
  exact ⟨fieldOp_encodeOpi .., fieldMode_encodeOpi .., fieldDR_encodeOpi .., fieldBaseR_encodeOpi ..,
    fieldImm5_encodeOpi ..⟩

theorem fields_of_opr_agree {w : Word} {op : BitVec 4} {dr sr1 sr2 : Reg}
    (h : w &&& 0xFFE7 = encodeOpr op dr sr1 sr2 &&& 0xFFE7) :
    fieldOp w = op ∧ fieldMode w = false ∧ fieldDR w = dr ∧ fieldBaseR w = sr1 ∧ fieldSR2 w = sr2 :=
  ⟨(fieldOp_congr h rfl).trans (fieldOp_encodeOpr ..), (getLsbD_congr h rfl).trans (fieldMode_encodeOpr ..),
    (fieldDR_congr h rfl).trans (fieldDR_encodeOpr ..), (fieldBaseR_congr h rfl).trans (fieldBaseR_encodeOpr ..),
    (fieldSR2_congr h rfl).trans (fieldSR2_encodeOpr ..)⟩

theorem decode_of_not_agree {w : Word} {dr sr1 : Reg}
    (h : w &&& 0xFFC0 = encodeBase6 0b1001#4 dr sr1 0b111111#6 &&& 0xFFC0) : decode w = .not dr sr1 := by
  have hop : fieldOp w = 0b1001#4 := (fieldOp_congr h rfl).trans (fieldOp_encodeBase6 ..)
  rw [(DecodesTo.not hop).decode_eq, fieldDR_congr h rfl, fieldBaseR_congr h rfl, fieldDR_encodeBase6,
    fieldBaseR_encodeBase6]

theorem decode_of_jmp_agree {w : Word} {b : Reg} (h : w &&& 0xF1C0 = encodeBase 0b1100#4 b &&& 0xF1C0) :
    decode w = decodeJmp b := by
  have hop : fieldOp w = 0b1100#4 := (fieldOp_congr h rfl).trans (fieldOp_encodeBase ..)
  rw [(DecodesTo.jmp hop).decode_eq, fieldBaseR_congr h rfl, fieldBaseR_encodeBase]

theorem decode_of_jsrr_agree {w : Word} {b : Reg} (h : w &&& 0xF9C0 = encodeBase 0b0100#4 b &&& 0xF9C0) :
    decode w = .jsrr b := by
  have hop : fieldOp w = 0b0100#4 := (fieldOp_congr h rfl).trans (fieldOp_encodeBase ..)
  have hlong : fieldLong w = false := (getLsbD_congr h rfl).trans (fieldLong_encodeBase 0b0100#4 b)
  rw [(DecodesTo.jsrr hop hlong).decode_eq, fieldBaseR_congr h rfl, fieldBaseR_encodeBase]

theorem decode_of_trap_agree {w : Word} {v : Byte} (h : w &&& 0xF0FF = encodeTrap v &&& 0xF0FF) :
    decode w = decodeTrap v := by
  have hop : fieldOp w = 0b1111#4 := (fieldOp_congr h rfl).trans (fieldOp_encodeTrap v)
  have hvect : fieldTrapvect8 w = v := (extract_congr h rfl).trans (fieldTrapvect8_encodeTrap v)
  rw [(DecodesTo.trap hop).decode_eq, hvect]

/-- A word that agrees with the word of `i` on every bit some field uses holds `i` (R90, R96). -/
theorem decode_of_agree {i : Instr} (hi : i.wellFormed = true) {w : Word}
    (h : w &&& i.usedBits = encode i &&& i.usedBits) : decode w = i := by
  cases i with
  | addReg dr sr1 sr2 =>
    obtain ⟨hop, hmode, rfl, rfl, rfl⟩ := fields_of_opr_agree h
    exact (DecodesTo.addReg hop hmode).decode_eq
  | andReg dr sr1 sr2 =>
    obtain ⟨hop, hmode, rfl, rfl, rfl⟩ := fields_of_opr_agree h
    exact (DecodesTo.andReg hop hmode).decode_eq
  | addImm dr sr1 imm5 =>
    obtain ⟨hop, hmode, rfl, rfl, rfl⟩ := fields_of_opi_agree h
    exact (DecodesTo.addImm hop hmode).decode_eq
  | andImm dr sr1 imm5 =>
    obtain ⟨hop, hmode, rfl, rfl, rfl⟩ := fields_of_opi_agree h
    exact (DecodesTo.andImm hop hmode).decode_eq
  | not dr sr1 => exact decode_of_not_agree h
  | br nzp off =>
    rw [eq_of_agree_everywhere h, encode, (DecodesTo.br (op_of_pc9 ..)).decode_eq, fieldNzp, bits11to9_of_pc9,
      offset_of_pc9]
  | ret => exact decode_of_jmp_agree h
  | jmp b => exact (decode_of_jmp_agree h).trans (decodeJmp_of_ne (bne_iff_ne.mp hi))
  | jsr off =>
    rw [eq_of_agree_everywhere h, encode, (DecodesTo.jsr (op_of_jsr ..) (long_of_jsr ..)).decode_eq, offset_of_jsr]
  | jsrr b => exact decode_of_jsrr_agree h
  | ld dr off =>
    obtain ⟨hop, rfl, rfl⟩ := fields_of_pc9_agree h
    exact (DecodesTo.ld hop).decode_eq
  | ldi dr off =>
    obtain ⟨hop, rfl, rfl⟩ := fields_of_pc9_agree h
    exact (DecodesTo.ldi hop).decode_eq
  | lea dr off =>
    obtain ⟨hop, rfl, rfl⟩ := fields_of_pc9_agree h
    exact (DecodesTo.lea hop).decode_eq
  | st sr off =>
    obtain ⟨hop, rfl, rfl⟩ := fields_of_pc9_agree h
    exact (DecodesTo.st hop).decode_eq
  | sti sr off =>
    obtain ⟨hop, rfl, rfl⟩ := fields_of_pc9_agree h
    exact (DecodesTo.sti hop).decode_eq
  | ldr dr b off =>
    obtain ⟨hop, rfl, rfl, rfl⟩ := fields_of_base6_agree h
    exact (DecodesTo.ldr hop).decode_eq
  | str sr b off =>
    obtain ⟨hop, rfl, rfl, rfl⟩ := fields_of_base6_agree h
    exact (DecodesTo.str hop).decode_eq
  | getc | out | puts | inChar | putsp | halt => exact decode_of_trap_agree h
  | trap v =>
    have hv : recognisedVector v = false := by simpa [Instr.wellFormed] using hi
    exact (decode_of_trap_agree h).trans (decodeTrap_of_not_recognised hv)
  | rti => exact (DecodesTo.rti (fieldOp_congr (m := 0xF000) h rfl)).decode_eq
  | res => exact (DecodesTo.res (fieldOp_congr (m := 0xF000) h rfl)).decode_eq

/-- Settles O7: the word of `i` agrees with itself. -/
theorem decodeEncodeRoundTrip : Obligations.DecodeEncodeRoundTrip := fun _ hi => decode_of_agree hi rfl

/-- Settles O9: `w'` agrees with `w`, and so with the word of `w`'s instruction, on every bit some field uses. -/
theorem unusedBitsAreIgnored : Obligations.UnusedBitsAreIgnored := by
  unfold Obligations.UnusedBitsAreIgnored
  intro w w' h
  have hw := decodesTo_decode w
  exact decode_of_agree hw.wellFormed (h.symm.trans hw.encode_agree.symm)

end Sys2Proof
end

section
/-! The rows of the opcode table (30_encoding.md R96): the rows a word matches, and which of them the decoder names. -/
namespace Sys2Proof

open Sys2Proof.Machine Sys2Proof.Safety

/-! ### The row of a word's instruction -/

/-- `Laws.EncodedRow`, of every instruction. -/
theorem encode_row (i : Instr) : encode i &&& i.rowMask = i.rowMatch := by
  cases i with
  | addReg => exact Laws.EncodedRow.addReg ..
  | addImm => exact Laws.EncodedRow.addImm ..
  | andReg => exact Laws.EncodedRow.andReg ..
  | andImm => exact Laws.EncodedRow.andImm ..
  | not => exact Laws.EncodedRow.not ..
  | br => exact Laws.EncodedRow.br ..
  | ret => exact Laws.EncodedRow.ret
  | jmp => exact Laws.EncodedRow.jmp ..
  | jsr => exact Laws.EncodedRow.jsr ..
  | jsrr => exact Laws.EncodedRow.jsrr ..
  | ld => exact Laws.EncodedRow.ld ..
  | ldi => exact Laws.EncodedRow.ldi ..
  | ldr => exact Laws.EncodedRow.ldr ..
  | lea => exact Laws.EncodedRow.lea ..
  | st => exact Laws.EncodedRow.st ..
  | sti => exact Laws.EncodedRow.sti ..
  | str => exact Laws.EncodedRow.str ..
  | getc => exact Laws.EncodedRow.getc
  | out => exact Laws.EncodedRow.out
  | puts => exact Laws.EncodedRow.puts
  | inChar => exact Laws.EncodedRow.inChar
  | putsp => exact Laws.EncodedRow.putsp
  | halt => exact Laws.EncodedRow.halt
  | trap => exact Laws.EncodedRow.trap ..
  | rti => exact Laws.EncodedRow.rti
  | res => exact Laws.EncodedRow.res

/-- Every bit a row fixes is a bit some field uses. -/
theorem usedBits_and_rowMask (i : Instr) : i.usedBits &&& i.rowMask = i.rowMask := by
  cases i <;> dsimp only [Instr.usedBits, Instr.rowMask] <;> rfl

/-- A word is of the row of the instruction it holds. -/
theorem decode_row (w : Word) : w &&& (decode w).rowMask = (decode w).rowMatch := by
  have hused := (decodesTo_decode w).encode_agree
  exact (agree_mono hused (usedBits_and_rowMask _)).symm.trans (encode_row _)

/-- Two instructions of one row of the opcode table. -/
def SameRow (i j : Instr) : Prop := i.rowMask = j.rowMask ∧ i.rowMatch = j.rowMatch

theorem DecodesTo.sameRow {w : Word} {i j : Instr} (h : DecodesTo w j) (hmask : i.rowMask = j.rowMask)
    (hmatch : i.rowMatch = j.rowMatch) : SameRow i (decode w) := by
  rw [h.decode_eq]; exact ⟨hmask, hmatch⟩

/-- A word of a row that fixes every used bit holds that row's instruction. -/
theorem decode_of_row {i : Instr} (hi : i.wellFormed = true) (hmask : i.rowMask = i.usedBits) {w : Word}
    (h : w &&& i.rowMask = i.rowMatch) : decode w = i :=
  decode_of_agree hi (by rw [← hmask, h, encode_row])

/-! ### The fixed bits of a row

What they say of the fields that select the instruction: the converses of `Laws.EncodedRow.row_of_op` and its like. -/

section FixedBits
variable {w : Word} {op : BitVec 4}

/-- A row that fixes the opcode and the bits `m` of the low twelve. -/
theorem op_of_fixed {m low : BitVec 12} (h : w &&& (0b1111#4 ++ m) = op ++ low) : fieldOp w = op := by
  have hmask : fieldOp (0b1111#4 ++ m) = 0b1111#4 := (extract_append_high 0b1111#4 m 0 4).trans rfl
  exact (op_of_masked h hmask).trans ((extract_append_high op low 0 4).trans (extract_whole op))

/-- A bit that a row fixes, below the opcode. -/
theorem bit_of_fixed {m low : BitVec 12} (h : w &&& (0b1111#4 ++ m) = op ++ low) {k : Nat} (hk : k < 12)
    (hm : m.getLsbD k = true) : w.getLsbD k = low.getLsbD k := by
  have hbit := congrArg (BitVec.getLsbD · k) h
  simp only [BitVec.getLsbD_and, BitVec.getLsbD_append, hk, hm, if_true, Bool.and_true] at hbit
  exact hbit

theorem op_of_row (h : w &&& 0xF000 = op ++ 0#12) : fieldOp w = op := op_of_fixed (m := 0#12) h

theorem op_mode_of_row (low : BitVec 12) (h : w &&& 0xF020 = op ++ low) :
    fieldOp w = op ∧ fieldMode w = low.getLsbD 5 :=
  ⟨op_of_fixed (m := 0x020#12) h, bit_of_fixed (m := 0x020#12) h (by decide) rfl⟩

theorem op_long_of_row (low : BitVec 12) (h : w &&& 0xF800 = op ++ low) :
    fieldOp w = op ∧ fieldLong w = low.getLsbD 11 :=
  ⟨op_of_fixed (m := 0x800#12) h, bit_of_fixed (m := 0x800#12) h (by decide) rfl⟩

end FixedBits

/-! ### Every row a word matches -/

/-- A word of the JMP row holds RET or a JMP. -/
theorem jmp_row_cases {w : Word} (hop : fieldOp w = 0b1100#4) (b : Reg) :
    SameRow (.jmp b) (decode w) ∨ decode w = .ret := by
  have hd := (DecodesTo.jmp hop).decode_eq
  by_cases h : fieldBaseR w = 7
  · exact .inr (hd.trans (if_pos h))
  · exact .inl ((hd.trans (if_neg h)) ▸ ⟨rfl, rfl⟩)

/-- A word of the generic TRAP row holds a service or that row's own instruction. -/
theorem trap_row_cases {w : Word} (hop : fieldOp w = 0b1111#4) (u : Byte) :
    SameRow (.trap u) (decode w) ∨ ∃ v, trapVector (decode w) = some v ∧ recognisedVector v = true := by
  have hd := (DecodesTo.trap hop).decode_eq
  cases h : recognisedVector (fieldTrapvect8 w) with
  | true => exact .inr ⟨_, hd ▸ trapVector_decodeTrap _, h⟩
  | false => exact .inl ((hd.trans (decodeTrap_of_not_recognised h)) ▸ ⟨rfl, rfl⟩)

/-- The rows a word is of: its instruction's, and the two general rows where a more specific one names it. -/
theorem row_cases {w : Word} {i : Instr} (h : w &&& i.rowMask = i.rowMatch) :
    SameRow i (decode w) ∨ (decode w = .ret ∧ ∃ b, i = .jmp b) ∨
      (∃ v u, trapVector (decode w) = some v ∧ recognisedVector v = true ∧ i = .trap u) := by
  have same (hd : decode w = i) : SameRow i (decode w) := hd ▸ ⟨rfl, rfl⟩
  cases i with
  | not => exact .inl ((DecodesTo.not (op_of_row h)).sameRow rfl rfl)
  | br => exact .inl ((DecodesTo.br (op_of_row h)).sameRow rfl rfl)
  | ld => exact .inl ((DecodesTo.ld (op_of_row h)).sameRow rfl rfl)
  | ldi => exact .inl ((DecodesTo.ldi (op_of_row h)).sameRow rfl rfl)
  | ldr => exact .inl ((DecodesTo.ldr (op_of_row h)).sameRow rfl rfl)
  | lea => exact .inl ((DecodesTo.lea (op_of_row h)).sameRow rfl rfl)
  | st => exact .inl ((DecodesTo.st (op_of_row h)).sameRow rfl rfl)
  | sti => exact .inl ((DecodesTo.sti (op_of_row h)).sameRow rfl rfl)
  | str => exact .inl ((DecodesTo.str (op_of_row h)).sameRow rfl rfl)
  | addReg =>
    obtain ⟨hop, hmode⟩ := op_mode_of_row (op := 0b0001#4) 0x000 h
    exact .inl ((DecodesTo.addReg hop hmode).sameRow rfl rfl)
  | addImm =>
    obtain ⟨hop, hmode⟩ := op_mode_of_row (op := 0b0001#4) 0x020 h
    exact .inl ((DecodesTo.addImm hop hmode).sameRow rfl rfl)
  | andReg =>
    obtain ⟨hop, hmode⟩ := op_mode_of_row (op := 0b0101#4) 0x000 h
    exact .inl ((DecodesTo.andReg hop hmode).sameRow rfl rfl)
  | andImm =>
    obtain ⟨hop, hmode⟩ := op_mode_of_row (op := 0b0101#4) 0x020 h
    exact .inl ((DecodesTo.andImm hop hmode).sameRow rfl rfl)
  | jsr =>
    obtain ⟨hop, hlong⟩ := op_long_of_row (op := 0b0100#4) 0x800 h
    exact .inl ((DecodesTo.jsr hop hlong).sameRow rfl rfl)
  | jsrr =>
    obtain ⟨hop, hlong⟩ := op_long_of_row (op := 0b0100#4) 0x000 h
    exact .inl ((DecodesTo.jsrr hop hlong).sameRow rfl rfl)
  | jmp b =>
    rcases jmp_row_cases (op_of_row h) b with hsame | hret
    · exact .inl hsame
    · exact .inr (.inl ⟨hret, b, rfl⟩)
  | trap u =>
    rcases trap_row_cases (op_of_row h) u with hsame | ⟨v, hv, hrec⟩
    · exact .inl hsame
    · exact .inr (.inr ⟨v, u, hv, hrec, rfl⟩)
  | ret | getc | out | puts | inChar | putsp | halt | rti | res => exact .inl (same (decode_of_row rfl rfl h))

/-- Settles O10: the row of the instruction `w` holds, and the cases of any other. -/
theorem decodeNamesTheMostSpecificRow : Obligations.DecodeNamesTheMostSpecificRow := fun w =>
  ⟨decode_row w, fun _ h => row_cases h⟩

end Sys2Proof
end

section
/-! One step of the engine and its words (30_encoding.md R81 to R83, R93, R96): nothing is refused, an ended machine
stays, and the two rows of a word have one meaning. -/
namespace Sys2Proof.Machine

/-! ### The two rows of a word (R96) -/

theorem exec_jmp_eq_exec_decodeJmp (b : Reg) (s : State) : exec (.jmp b) s = exec (decodeJmp b) s := by
  unfold decodeJmp
  split
  next h => rw [h]; rfl
  next => rfl

/-- The generic TRAP row's meaning is that of the row the decoder names (R180). -/
theorem exec_trap_eq_exec_decodeTrap (v : Byte) (s : State) : exec (.trap v) s = exec (decodeTrap v) s := by
  unfold decodeTrap
  split_ifs <;> subst_vars <;> rfl

/-- Settles O11: the general rows at RET's base register and at each of the six vectors. -/
theorem bothRowsMeanTheSame : Obligations.BothRowsMeanTheSame := fun s =>
  ⟨exec_jmp_eq_exec_decodeJmp 7 s, exec_trap_eq_exec_decodeTrap 0x20 s, exec_trap_eq_exec_decodeTrap 0x21 s,
    exec_trap_eq_exec_decodeTrap 0x22 s, exec_trap_eq_exec_decodeTrap 0x23 s, exec_trap_eq_exec_decodeTrap 0x24 s,
    exec_trap_eq_exec_decodeTrap 0x25 s⟩

/-- Settles O12: each word, decoded. -/
theorem wordsOfTheSpecDecode : Obligations.WordsOfTheSpecDecode := by
  unfold Obligations.WordsOfTheSpecDecode
  decide

/-! ### A step -/

/-- Settles O17: the state the instruction runs from is the fetched one. -/
theorem stepRunsTheDecodedInstruction : Obligations.StepRunsTheDecodedInstruction := fun _ hes => step_ready hes

theorem step_halted {s : State} (h : s.es = .halted) : step s = .next s := by
  unfold step; rw [h]

theorem step_faulted {s : State} {f : Fault} (h : s.es = .faulted f) : step s = .next s := by
  unfold step; rw [h]

/-- Settles O22: each of the three states of rest. -/
theorem endedMachineStays : Obligations.EndedMachineStays := by
  unfold Obligations.EndedMachineStays
  rintro s (h | ⟨f, h⟩ | h)
  · exact step_halted h
  · exact step_faulted h
  · exact step_created h

/-- Every meaning is a next state, a fault of the CORE among them (R223, R224). -/
theorem exec_is_next (i : Instr) (s : State) : ∃ t, exec i s = .next t := by
  cases i <;> exact ⟨_, rfl⟩

theorem step_is_next (s : State) : ∃ t, step s = .next t := by
  cases hes : s.es with
  | created => exact ⟨_, step_created hes⟩
  | halted => exact ⟨_, step_halted hes⟩
  | faulted f => exact ⟨_, step_faulted hes⟩
  | running act =>
    cases act with
    | ready => exact step_ready hes ▸ exec_is_next _ _
    | waitInput svc => exact ⟨_, step_waiting hes⟩
    | scanning svc => exact ⟨_, step_scanning hes⟩

/-- Settles O18: no meaning and no engine state answers anything but a next state. -/
theorem nothingIsRefused : Obligations.NothingIsRefused := ⟨exec_is_next, step_is_next⟩

/-- A BR with no condition is never taken (R130). -/
theorem exec_br_zero (off : BitVec 9) (s : State) : exec (.br 0 off) s = .next s := by
  have hsel : ¬s.condSelected 0 = true := by simp [State.condSelected]
  exact congrArg Host.Outcome.next (if_neg hsel)

/-- Settles O42: the word 0x0000 is the BR with no condition. -/
theorem zeroWordOnlyAdvancesPc : Obligations.ZeroWordOnlyAdvancesPc := by
  unfold Obligations.ZeroWordOnlyAdvancesPc
  intro s hes hword
  have hdec : decode 0 = .br 0 0 := by decide
  rw [step_ready hes, fetch_ir_eq, hword, hdec, exec_br_zero, State.fetch, hword]

end Sys2Proof.Machine
end

section
/-! The operate instructions (40_operate.md R110 to R120): writing a register with its flag as the effect of every
flag-affecting instruction (R29), and the value ADD, AND and NOT write. -/
namespace Sys2Proof.Machine

open Sys2Proof.Safety

/-! ### A register and its flag -/

/-- Writing a register and its flag does what a flag-affecting instruction does, and nothing else. -/
theorem writesRegCc_setRegCc (dr : Reg) (v : Word) (s : State) : WritesRegCc dr v s (s.setRegCc dr v) where
  result := reg_setReg_self s dr v
  flag := flagOf_flagIs v
  regs _ hq := reg_setReg_ne s v hq
  pc := rfl
  mem _ := rfl
  console := ⟨rfl, rfl, rfl⟩
  engine := ⟨rfl, rfl, rfl⟩

theorem exists_writesRegCc_of_exec {i : Instr} {s : State} {dr : Reg} {v : Word}
    (h : exec i s = .next (s.setRegCc dr v)) : ∃ t, exec i s = .next t ∧ WritesRegCc dr v s t :=
  ⟨_, h, writesRegCc_setRegCc dr v s⟩

/-! ### ADD, AND and NOT -/

/-- The sum is that of the unsigned values, modulo 65536 (R13). -/
theorem exec_addReg (dr sr1 sr2 : Reg) (s : State) :
    exec (.addReg dr sr1 sr2) s =
      .next (s.setRegCc dr (BitVec.ofNat 16 ((s.reg sr1).toNat + (s.reg sr2).toNat))) := by
  rw [← BitVec.add_def]; rfl

/-- The sum is that of the signed values, modulo 65536: the immediate is sign-extended (R11). -/
theorem exec_addImm (dr sr1 : Reg) (imm5 : BitVec 5) (s : State) :
    exec (.addImm dr sr1 imm5) s =
      .next (s.setRegCc dr (BitVec.ofInt 16 ((s.reg sr1).toInt + imm5.toInt))) := by
  rw [← add_signExtend_eq_ofInt]; rfl

theorem exec_andReg (dr sr1 sr2 : Reg) (s : State) :
    exec (.andReg dr sr1 sr2) s = .next (s.setRegCc dr (s.reg sr1 &&& s.reg sr2)) := rfl

theorem exec_andImm (dr sr1 : Reg) (imm5 : BitVec 5) (s : State) :
    exec (.andImm dr sr1 imm5) s = .next (s.setRegCc dr (s.reg sr1 &&& imm5.signExtend 16)) := rfl

theorem exec_not (dr sr1 : Reg) (s : State) :
    exec (.not dr sr1) s = .next (s.setRegCc dr (~~~ s.reg sr1)) := rfl

/-- Settles O31: each mode writes DR and its flag, with the sum. -/
theorem addWritesTheSum : Obligations.AddWritesTheSum := fun s dr sr1 sr2 imm5 =>
  ⟨exists_writesRegCc_of_exec (exec_addReg dr sr1 sr2 s), exists_writesRegCc_of_exec (exec_addImm dr sr1 imm5 s)⟩

/-- Settles O32: each mode writes DR and its flag, with the conjunction. -/
theorem andWritesTheConjunction : Obligations.AndWritesTheConjunction := fun s dr sr1 sr2 imm5 =>
  ⟨exists_writesRegCc_of_exec (exec_andReg dr sr1 sr2 s), exists_writesRegCc_of_exec (exec_andImm dr sr1 imm5 s)⟩

/-- Settles O33: NOT writes DR and its flag, and what DR then reads as is the complement of what SR1 held, also where
the two are one register. -/
theorem notWritesTheComplement : Obligations.NotWritesTheComplement := by
  unfold Obligations.NotWritesTheComplement
  intro s dr sr1
  obtain ⟨t, hexec, hwrites⟩ := exists_writesRegCc_of_exec (exec_not dr sr1 s)
  refine ⟨t, hexec, ?_⟩
  rw [hwrites.result]
  exact ⟨hwrites, fun k hk => by rw [BitVec.getLsbD_not, decide_eq_true hk, Bool.true_and]⟩

end Sys2Proof.Machine
end

section
/-! Control transfer (41_control.md R130 to R145): writing pc as the effect of a jump, the link and pc as that of a call,
when BR is taken, and the target each instruction writes. -/
namespace Sys2Proof.Machine

open Sys2Proof.Safety

/-! ### Jumps and calls -/

/-- Writing pc does what a jump does, and nothing else. -/
theorem jumps_setPc (target : Word) (s : State) : Jumps target s (s.setPc target) where
  pc := rfl
  regs _ := rfl
  cond := rfl
  mem _ := rfl
  console := ⟨rfl, rfl, rfl⟩
  engine := ⟨rfl, rfl, rfl⟩

/-- Saving the return address and writing pc does what a call does, and nothing else. -/
theorem calls_link_setPc (target : Word) (s : State) : Calls target s (s.link.setPc target) where
  pc := rfl
  link := reg_setReg_self s 7 s.pc
  regs _ hq := reg_setReg_ne s s.pc hq
  cond := rfl
  mem _ := rfl
  console := ⟨rfl, rfl, rfl⟩
  engine := ⟨rfl, rfl, rfl⟩

/-! ### BR -/

/-- BR's test, of a COND that is one flag: that flag's bit of the nzp field is set (R130; log 11). -/
theorem condSelected_iff_of_oneFlag {s : State} (h : OneFlag s.cond) (nzp : BitVec 3) :
    s.condSelected nzp = true ↔
      (nzp.getLsbD 2 = true ∧ s.cond = condNeg) ∨ (nzp.getLsbD 1 = true ∧ s.cond = condZro) ∨
        (nzp.getLsbD 0 = true ∧ s.cond = condPos) := by
  unfold State.condSelected
  rcases h with hc | hc | hc <;> rw [hc] <;> revert nzp <;> decide

/-- BR is a jump: to its target when its test holds, and else to the pc it has. -/
theorem exec_br (nzp : BitVec 3) (off : BitVec 9) (s : State) :
    exec (.br nzp off) s =
      .next (s.setPc (if s.condSelected nzp then BitVec.ofInt 16 (s.pc.toInt + off.toInt) else s.pc)) := by
  rw [← pcRel9_eq_ofInt]
  exact congrArg Host.Outcome.next (apply_ite (State.setPc · s) _ _ _).symm

/-- Settles O34: BR is a jump whose test, where COND is one flag, is whether that flag is selected. -/
theorem branchFollowsTheFlags : Obligations.BranchFollowsTheFlags := by
  unfold Obligations.BranchFollowsTheFlags
  intro s nzp off
  have hjump := jumps_setPc (if s.condSelected nzp then BitVec.ofInt 16 (s.pc.toInt + off.toInt) else s.pc) s
  refine ⟨_, exec_br nzp off s, hjump.regs, hjump.cond, hjump.mem, hjump.console, hjump.engine,
    fun hflag => ⟨fun hsel => ?taken, fun hsel => ?notTaken⟩, fun hnzp => ?never⟩
  case taken => exact if_pos ((condSelected_iff_of_oneFlag hflag nzp).mpr hsel)
  case notTaken => exact if_neg (mt (condSelected_iff_of_oneFlag hflag nzp).mp hsel)
  case never =>
    subst hnzp
    exact congrArg State.pc (Host.Outcome.next.inj ((exec_br 0 off s).symm.trans (exec_br_zero off s)))

/-! ### JMP, RET, JSR and JSRR -/

theorem exec_jmp (baseR : Reg) (s : State) : exec (.jmp baseR) s = .next (s.setPc (s.reg baseR)) := rfl

theorem exec_ret (s : State) : exec .ret s = .next (s.setPc (s.reg 7)) := rfl

/-- Settles O35: JMP and RET are jumps to what their register holds. -/
theorem jumpsGoToTheirRegister : Obligations.JumpsGoToTheirRegister := fun s baseR =>
  ⟨⟨_, exec_jmp baseR s, jumps_setPc _ s⟩, _, exec_ret s, jumps_setPc _ s⟩

theorem pcRel11_eq_ofInt (off : BitVec 11) (s : State) :
    s.pcRel11 off = BitVec.ofInt 16 (s.pc.toInt + off.toInt) := add_signExtend_eq_ofInt s.pc off

/-- The target of JSR is computed from the return address, modulo 65536 (R140, R175). -/
theorem exec_jsr (off : BitVec 11) (s : State) :
    exec (.jsr off) s = .next (s.link.setPc (BitVec.ofInt 16 (s.pc.toInt + off.toInt))) := by
  rw [← pcRel11_eq_ofInt]; rfl

/-- Settles O36: JSR is a call of its pc-relative target. -/
theorem jsrLinksAndJumps : Obligations.JsrLinksAndJumps := fun s off => ⟨_, exec_jsr off s, calls_link_setPc _ s⟩

theorem exec_jsrr (baseR : Reg) (s : State) :
    exec (.jsrr baseR) s =
      .next (s.link.setPc (if s.cfg.jsrrLinkFirst then s.link.reg baseR else s.reg baseR)) := rfl

/-- Settles O37: JSRR is a call of what its base register holds, after the link or before it; the link writes R7 alone, so
the order shows only there. -/
theorem jsrrLinksAndJumps : Obligations.JsrrLinksAndJumps := by
  unfold Obligations.JsrrLinksAndJumps
  intro s baseR
  refine ⟨_, _, exec_jsrr baseR s, calls_link_setPc _ s, fun hbase => ?otherBase, fun hbase hfirst => ?linkFirst,
    fun hbase hlast => ?baseFirst⟩
  case otherBase => rw [link_eq, reg_setReg_ne s s.pc hbase, ite_self]
  case linkFirst => rw [if_pos hfirst, hbase, link_eq, reg_setReg_self]
  case baseFirst => rw [hlast, if_neg Bool.false_ne_true, hbase]

end Sys2Proof.Machine
end

section
/-! Loads, LEA and stores (42_load_store.md R150 to R175): a load writes a register and its flag with the word at its
address, LEA with the address itself, and a store is a memory write. -/
namespace Sys2Proof.Machine

/-! ### Stores -/

/-- Settles O40: each of the three stores is a memory write to its address, and STI takes its pointer word from the memory
before that write. -/
theorem storesWriteTheWord : Obligations.StoresWriteTheWord := fun s sr baseR off9 off6 hwf =>
  ⟨⟨_, exec_st sr off9 s, stores_memWrite hwf _ _⟩, ⟨_, exec_sti sr off9 s, stores_memWrite hwf _ _⟩,
    _, exec_str sr baseR off6 s, stores_memWrite hwf _ _⟩

/-! ### Loads -/

/-- The address of LD is the pc, already that of the next instruction, plus the signed offset, modulo 65536 (R150, R175). -/
theorem exec_ld (dr : Reg) (off : BitVec 9) (s : State) :
    exec (.ld dr off) s = .next (s.setRegCc dr (s.memRead (BitVec.ofInt 16 (s.pc.toInt + off.toInt)))) := by
  rw [← pcRel9_eq_ofInt]; rfl

/-- LDI reads the word whose address is the pointer word (R154, R175). -/
theorem exec_ldi (dr : Reg) (off : BitVec 9) (s : State) :
    exec (.ldi dr off) s =
      .next (s.setRegCc dr (s.memRead (s.memRead (BitVec.ofInt 16 (s.pc.toInt + off.toInt))))) := by
  rw [← indirect9_eq_ofInt]; rfl

/-- The address of LDR takes the base register as it was before the load, also where the base is DR (R158, R175). -/
theorem exec_ldr (dr baseR : Reg) (off : BitVec 6) (s : State) :
    exec (.ldr dr baseR off) s =
      .next (s.setRegCc dr (s.memRead (BitVec.ofInt 16 ((s.reg baseR).toInt + off.toInt)))) := by
  rw [← basePlus6_eq_ofInt]; rfl

/-- Settles O38: each of the three loads writes DR and its flag, with the word at its address. -/
theorem loadsWriteTheWord : Obligations.LoadsWriteTheWord := fun s dr baseR off9 off6 =>
  ⟨exists_writesRegCc_of_exec (exec_ld dr off9 s), exists_writesRegCc_of_exec (exec_ldi dr off9 s),
    exists_writesRegCc_of_exec (exec_ldr dr baseR off6 s)⟩

/-! ### LEA -/

/-- LEA writes its address, and sets the flag from it (R162; C4). -/
theorem exec_lea (dr : Reg) (off : BitVec 9) (s : State) :
    exec (.lea dr off) s = .next (s.setRegCc dr (BitVec.ofInt 16 (s.pc.toInt + off.toInt))) := by
  rw [← pcRel9_eq_ofInt]; rfl

/-- Settles O39: LEA writes DR and its flag, with the address. -/
theorem leaWritesTheAddress : Obligations.LeaWritesTheAddress := fun s dr off9 =>
  exists_writesRegCc_of_exec (exec_lea dr off9 s)

end Sys2Proof.Machine
end

section
/-! The console's transactions as the effect of a TRAP (43_trap_services.md R180 to R199): after the link a service
writes bytes and goes on, or faults at the write that fails, and a byte read ends in R0 with its flag. -/
namespace Sys2Proof.Machine

open Sys2Proof.Safety

/-! ### A TRAP that writes -/

/-- A write on a port that fails after fewer bytes leaves those written and raises ConsoleIOError (R182; log 6, 19). -/
theorem consoleWrite_failingAfter {v : Byte} {bs : List Byte} {k : State → State} {s : State} {m : Nat}
    (hout : s.conOut = .failingAfter m) (hm : m < bs.length) :
    s.consoleWrite v bs k =
      (s.wrote (bs.take m)).setEs (.faulted (.consoleIOError .conOut v (s.pc - 1))) := by
  rw [consoleWrite_fail (by simpa [hout] using hm)]
  simp [hout, OutPort.accepted, Nat.min_eq_right (Nat.le_of_lt hm)]

section
variable {i : Instr} {s : State} {v : Byte} {bs : List Byte}

/-- A TRAP whose writes are all accepted goes on after them. -/
theorem exec_write_ok {k : State → State} (h : exec i s = .next (s.trapEntry.consoleWrite v bs k))
    (hout : s.conOut.accepts bs.length = true) : exec i s = .next (k (s.trapEntry.wrote bs)) :=
  h.trans (congrArg _ (consoleWrite_ok hout))

/-- A TRAP one of whose writes fails faults there, whatever it would have done next. -/
theorem exec_write_fail {k : State → State} {m : Nat} (h : exec i s = .next (s.trapEntry.consoleWrite v bs k))
    (hout : s.conOut = .failingAfter m) (hm : m < bs.length) :
    exec i s = .next ((s.trapEntry.wrote (bs.take m)).setEs (.faulted (.consoleIOError .conOut v (s.pc - 1)))) :=
  h.trans (congrArg _ (consoleWrite_failingAfter hout hm))

/-- A TRAP that only writes: its link and its bytes where the port accepts them, and a fault at the write that fails. -/
theorem exec_write_only (h : exec i s = .next (s.trapEntry.consoleWrite v bs id)) :
    (s.conOut.accepts bs.length = true → ∃ t, exec i s = .next t ∧ LinksOnly s t ∧ t.es = s.es ∧
      t.conIn = s.conIn ∧ t.conOut = s.conOut.after bs.length ∧ t.output = s.output ++ bs) ∧
    ∀ m, m < bs.length → s.conOut = .failingAfter m → ∃ t, exec i s = .next t ∧ LinksOnly s t ∧
      t.es = .faulted (.consoleIOError .conOut v (s.pc - 1)) ∧ t.conIn = s.conIn ∧
      t.output = s.output ++ bs.take m :=
  ⟨fun hout => ⟨_, exec_write_ok h hout, linksOnly_of_eq rfl, rfl, rfl, rfl, rfl⟩,
    fun _ hm hout => ⟨_, exec_write_fail h hout hm, linksOnly_of_eq rfl, rfl, rfl, rfl⟩⟩

end

/-- The link leaves R0, from which OUT, PUTS and PUTSP take their argument. -/
theorem reg_zero_trapEntry (s : State) : s.trapEntry.reg 0 = s.reg 0 := reg_setReg_ne s s.pc (by decide)

/-- OUT writes the low byte of R0 (R185). -/
theorem exec_out (s : State) :
    exec .out s = .next (s.trapEntry.consoleWrite 0x21 [BitVec.ofNat 8 (s.reg 0).toNat] id) := by
  rw [← lowByte_eq, ← reg_zero_trapEntry]
  rfl

/-- Settles O46: OUT is the write of one byte, so a port that fails at once leaves none. -/
theorem outWritesTheLowByte : Obligations.OutWritesTheLowByte := by
  unfold Obligations.OutWritesTheLowByte
  intro s
  obtain ⟨accepted, fails⟩ := exec_write_only (exec_out s)
  exact ⟨accepted, fun hout => by simpa using fails 0 Nat.zero_lt_one hout⟩

/-- HALT writes its banner and then halts (R198). -/
theorem exec_halt (s : State) :
    exec .halt s = .next (s.trapEntry.consoleWrite 0x25 s.cfg.haltBanner State.halt) := rfl

/-- Settles O53: HALT is the write of the banner, and it halts only where that is accepted. -/
theorem haltWritesTheBannerAndHalts : Obligations.HaltWritesTheBannerAndHalts := fun s =>
  ⟨fun hout => ⟨_, exec_write_ok (exec_halt s) hout, rfl, linksOnly_of_eq rfl, rfl, rfl, rfl⟩,
    fun _ hout hm => ⟨_, exec_write_fail (exec_halt s) hout hm, rfl, linksOnly_of_eq rfl, rfl, rfl⟩⟩

/-! ### A TRAP with an unrecognised vector -/

theorem trapDispatch_of_not_recognised {v : Byte} (h : recognisedVector v = false) (s : State) :
    trapDispatch v s = s.setEs (.faulted (.invalidTrapVector v (s.pc - 1))) := by
  simp only [recognisedVector, Bool.or_eq_false_iff, beq_eq_false_iff_ne] at h
  obtain ⟨⟨⟨⟨⟨h0, h1⟩, h2⟩, h3⟩, h4⟩, h5⟩ := h
  simp only [trapDispatch, h0, h1, h2, h3, h4, h5, if_false, raise_eq, trapAddress_eq]

/-- Settles O43: after the link the dispatch finds no service and raises InvalidTrapVector. -/
theorem unrecognisedVectorFaults : Obligations.UnrecognisedVectorFaults := fun s _ hv =>
  ⟨_, congrArg Host.Outcome.next (trapDispatch_of_not_recognised hv s.trapEntry), rfl, linksOnly_of_eq rfl,
    rfl, rfl, rfl⟩

/-! ### A TRAP that completes a read -/

/-- The flag of a zero-extended byte is never NEG, for bit 15 of it is 0 (R12, R28). -/
theorem flag_ne_neg_of_byte {b : Byte} {c : BitVec 3} (h : FlagIs (zext16 b) c) : c ≠ condNeg := by
  by_cases hv : zext16 b = 0
  · rw [h.zro hv]; decide
  · rw [h.pos hv (by simp [zext16])]; decide

/-- A TRAP that, after its link and but for the console, puts a byte in R0 with its flag. -/
theorem readsChar_of_eq {s t : State} {b : Byte}
    (h : t = { s.trapEntry.setRegCc 0 (zext16 b) with conIn := t.conIn, conOut := t.conOut, output := t.output }) :
    ReadsChar (zext16 b) s t := by
  rw [h]
  refine ⟨reg_setReg_self s.trapEntry 0 (zext16 b), flagOf_flagIs (zext16 b), ?link, fun q h0 h7 => ?regs, rfl,
    fun _ => rfl, rfl, rfl, rfl⟩
  case link => exact (reg_setReg_ne s.trapEntry _ (by decide)).trans (reg_setReg_self s 7 s.pc)
  case regs => exact (reg_setReg_ne s.trapEntry _ h0).trans (reg_setReg_ne s s.pc h7)

/-- Settles O44: the read of GETC, after the link, takes the answer and ends in R0. -/
theorem getcReadsOneByte : Obligations.GetcReadsOneByte := by
  unfold Obligations.GetcReadsOneByte
  intro s b rest hin
  rw [← zext16_eq_ofNat]
  have hreads : ReadsChar (zext16 b) s (s.trapEntry.answered.setRegCc 0 (zext16 b)) := readsChar_of_eq rfl
  exact ⟨_, (exec_getc s).trans (congrArg _ (consoleRead_byte hin)), hreads, flag_ne_neg_of_byte hreads.flag,
    congrArg List.tail hin, rfl, rfl⟩

/-- A port accepts `m` writes and then `n` exactly when it accepts `m + n`. -/
theorem OutPort.accepts_add (p : OutPort) (m n : Nat) :
    p.accepts (m + n) = true ↔ p.accepts m = true ∧ (p.after m).accepts n = true := by
  cases p with
  | accepting => simp
  | failingAfter l =>
    simp only [OutPort.accepts_failingAfter, OutPort.after_failingAfter, decide_eq_true_eq]
    omega

theorem OutPort.after_after (p : OutPort) (m n : Nat) : (p.after m).after n = p.after (m + n) := by
  cases p with
  | accepting => rfl
  | failingAfter l => simp [Nat.sub_sub]

/-- Settles O50: IN is its prompt, then its read, whose echo is one more byte on the same port. -/
theorem inPromptsReadsAndEchoes : Obligations.InPromptsReadsAndEchoes := by
  unfold Obligations.InPromptsReadsAndEchoes
  intro s b rest hin hout
  rw [← zext16_eq_ofNat]
  obtain ⟨hprompt, hecho⟩ := (s.conOut.accepts_add _ _).mp hout
  have hreads : ReadsChar (zext16 b) s
      (((s.trapEntry.wrote s.cfg.inPrompt).answered.wrote [b]).setRegCc 0 (zext16 b)) := readsChar_of_eq rfl
  exact ⟨_, (exec_inChar_prompted hprompt).trans (congrArg _ (inCharRead_byte hin hecho)), hreads,
    flag_ne_neg_of_byte hreads.flag, congrArg List.tail hin, s.conOut.after_after _ _, rfl⟩

end Sys2Proof.Machine
end

section
/-! PUTS and PUTSP (43_trap_services.md R188, R196): a pass of either is one write of the bytes it finds, and without a
zero word a pass follows a pass for ever (93_implementation_defined.md I5). -/
namespace Sys2Proof.Machine

open Sys2Proof.Safety

/-! ### The two scans as one -/

theorem exec_scanInstr (svc : ScanService) (s : State) :
    exec (scanInstr svc) s = .next (scanBody svc (scannedBytes svc) s.trapEntry) := by
  cases svc with
  | puts => rw [← funext putsBytes_eq]; rfl
  | putsp => rw [← funext putspBytes_eq]; rfl

theorem resumeScan_eq (svc : ScanService) (s : State) :
    resumeScan svc s = scanBody svc (scannedBytes svc) s.trapReturn := by
  cases svc with
  | puts => rw [← funext putsBytes_eq]; rfl
  | putsp => rw [← funext putspBytes_eq]; rfl

theorem finishPass_found (svc : ScanService) (bs : List Byte) (s : State) :
    finishPass svc (bs, true) s = s.consoleWrite svc.vector bs id := rfl

theorem finishPass_endless (svc : ScanService) (bs : List Byte) (s : State) :
    finishPass svc (bs, false) s = s.consoleWrite svc.vector bs (State.setEs (.running (.scanning svc))) := rfl

/-- A pass over a memory without a zero word writes all of it, and the scan is not over. -/
theorem scanBody_of_no_zero {svc : ScanService} {s : State} (hnz : ∀ a, s.memRead a ≠ 0) :
    scanBody svc (scannedBytes svc) s =
      s.consoleWrite svc.vector (passBytes svc s) (State.setEs (.running (.scanning svc))) := by
  rw [scanBody_eq_finishPass, scanWords_pass (fun _ => rfl) hnz, finishPass_endless]

/-! ### A scan that meets a zero word -/

/-- The `n`-th word from R0 on being the first zero word, PUTS and PUTSP only write the bytes of the words before it. -/
theorem exec_scanInstr_found {svc : ScanService} {s : State} {n : Nat} (hn : n < 65536)
    (hnz : ∀ k, k < n → s.memRead (s.reg 0 + BitVec.ofNat 16 k) ≠ 0)
    (hz : s.memRead (s.reg 0 + BitVec.ofNat 16 n) = 0) :
    exec (scanInstr svc) s = .next (s.trapEntry.consoleWrite svc.vector
      ((List.range n).flatMap fun k => scannedBytes svc (s.memRead (s.reg 0 + BitVec.ofNat 16 k))) id) := by
  have hscan := scanWords_found (scannedBytes svc) s.mem n 65536 (s.reg 0) hn hnz hz
  rw [exec_scanInstr, scanBody_eq_finishPass, reg_zero_trapEntry, trapEntry_eq, setReg_mem, hscan, finishPass_found]
  rfl

/-- Settles O47: PUTS only writes, one byte a word. -/
theorem putsWritesUpToTheZeroWord : Obligations.PutsWritesUpToTheZeroWord := by
  unfold Obligations.PutsWritesUpToTheZeroWord
  intro s n hn hnz hz bytes
  have hexec := exec_scanInstr_found (svc := .puts) hn hnz hz
  have hbytes : ((List.range n).flatMap fun k => scannedBytes .puts (s.memRead (s.reg 0 + BitVec.ofNat 16 k))) =
      bytes := List.map_eq_flatMap.symm
  have hlen : bytes.length = n := by simp [bytes]
  rw [hbytes] at hexec
  have h := exec_write_only hexec
  rw [hlen] at h
  exact h

/-- Settles O48: PUTSP only writes, the packed bytes of each word. -/
theorem putspWritesPackedBytes : Obligations.PutspWritesPackedBytes := fun _ _ hn hnz hz =>
  exec_write_only (exec_scanInstr_found (svc := .putsp) hn hnz hz)

/-! ### A scan that meets no zero word -/

section
variable {s : State} {svc : ScanService}

theorem exec_scanInstr_endless (hnz : ∀ a, s.memRead a ≠ 0) :
    exec (scanInstr svc) s = .next (s.trapEntry.consoleWrite svc.vector (passBytes svc s)
      (State.setEs (.running (.scanning svc)))) := by
  rw [exec_scanInstr, scanBody_of_no_zero (s := s.trapEntry) hnz, passBytes_congr (reg_zero_trapEntry s) rfl]

theorem step_endless (hnz : ∀ a, s.memRead a ≠ 0) (hes : s.es = .running (.scanning svc)) :
    step s = .next (s.trapReturn.consoleWrite svc.vector (passBytes svc s)
      (State.setEs (.running (.scanning svc)))) := by
  rw [step_scanning hes, resumeScan_eq, scanBody_of_no_zero (s := s.trapReturn) hnz,
    passBytes_congr (s := s) (t := s.trapReturn) rfl rfl]

/-- A further pass whose writes are accepted changes only the console. -/
theorem step_endless_ok (hnz : ∀ a, s.memRead a ≠ 0) (hes : s.es = .running (.scanning svc))
    (hout : s.conOut.accepts (passBytes svc s).length = true) :
    step s = .next { s with
      conOut := s.conOut.after (passBytes svc s).length, output := s.output ++ passBytes svc s } := by
  rw [step_endless hnz hes, consoleWrite_ok (s := s.trapReturn) hout, ← hes]
  rfl

/-- A further pass one of whose writes fails ends the scan there. -/
theorem step_endless_fail {m : Nat} (hnz : ∀ a, s.memRead a ≠ 0) (hes : s.es = .running (.scanning svc))
    (hm : m < (passBytes svc s).length) (hout : s.conOut = .failingAfter m) :
    step s = .next { s with
      es := .faulted (.consoleIOError .conOut svc.vector (s.pc - 1)), conOut := .failingAfter 0,
      output := s.output ++ (passBytes svc s).take m } := by
  have hafter : s.conOut.after ((passBytes svc s).take m).length = .failingAfter 0 := by
    rw [hout, List.length_take_of_le (Nat.le_of_lt hm), OutPort.after_failingAfter, Nat.sub_self]
  rw [step_endless hnz hes, consoleWrite_failingAfter (s := s.trapReturn) hout hm, ← hafter]
  rfl

end

theorem run_succ_of_step {M : Host.Core} {s t : M.State} (h : M.step s = .next t) (n : Nat) :
    M.run (n + 1) s = M.run n t := by
  simp only [Host.Core.run, h]

/-- While the port accepts, `n` steps of an endless scan are `n` passes, each over the same words. -/
theorem run_endless {svc : ScanService} (n : Nat) : ∀ {s : State}, (∀ a, s.memRead a ≠ 0) →
    s.es = .running (.scanning svc) → s.conOut = .accepting →
    Host.Core.run Sys2Proof.core n s =
      .next { s with output := s.output ++ (List.replicate n (passBytes svc s)).flatten } := by
  induction n with
  | zero => intro s _ _ _; simp [Host.Core.run]
  | succ n ih =>
    intro s hnz hes hout
    have hstep : Sys2Proof.core.step s = .next { s with output := s.output ++ passBytes svc s } := by
      have h := step_endless_ok hnz hes (by rw [hout]; rfl)
      rwa [hout, OutPort.after_accepting, ← hout] at h
    have hrest := ih (s := { s with output := s.output ++ passBytes svc s }) hnz hes hout
    rw [passBytes_congr (s := s) rfl rfl] at hrest
    rw [run_succ_of_step hstep, List.replicate_succ, List.flatten_cons, ← List.append_assoc]
    exact hrest

/-- Settles O49: each pass writes all of memory and leaves the engine in the scan, or faults at the write that fails. -/
theorem endlessScanRepeatsMemory : Obligations.EndlessScanRepeatsMemory := by
  unfold Obligations.EndlessScanRepeatsMemory
  intro s svc hnz
  have hexec := exec_scanInstr_endless (svc := svc) hnz
  refine ⟨fun hout => ?pass, fun m hm hout => ?fails, fun hes => ⟨step_endless_ok hnz hes,
    fun m hm hout => step_endless_fail hnz hes hm hout, fun hout n => run_endless n hnz hes hout⟩⟩
  case pass => exact ⟨_, exec_write_ok hexec hout, linksOnly_of_eq rfl, rfl, rfl, rfl, rfl⟩
  case fails => exact ⟨_, exec_write_fail hexec hout hm, linksOnly_of_eq rfl, rfl, rfl, rfl⟩

end Sys2Proof.Machine
end

section
/-! The reserved opcodes RTI and RES (44_halt_opcodes.md R210, R212): which words hold them, and all that they do. -/
namespace Sys2Proof

open Sys2Proof.Machine

/-- The opcode is all of the word that RTI's row fixes, and no field uses the rest (R90). -/
theorem decode_of_op_rti {w : Word} (hop : w &&& 0xF000 = 0x8000) : decode w = .rti :=
  decode_of_agree (i := .rti) rfl hop

/-- The opcode is all of the word that RES's row fixes, and no field uses the rest (R90). -/
theorem decode_of_op_res {w : Word} (hop : w &&& 0xF000 = 0xD000) : decode w = .res :=
  decode_of_agree (i := .res) rfl hop

/-- An instruction that only halts ends in HALTED and leaves the rest of the state. -/
theorem exec_halt_only {i : Instr} {s : State} (h : exec i s = .next s.halt) :
    ∃ t, exec i s = .next t ∧ t.es = .halted ∧ { t with es := s.es } = s :=
  ⟨s.halt, h, rfl, rfl⟩

/-- Settles O54: the opcode alone selects RTI and RES, and each of them only halts. -/
theorem reservedOpcodesHalt : Obligations.ReservedOpcodesHalt :=
  ⟨fun _ => decode_of_op_rti, fun _ => decode_of_op_res, fun _ => ⟨exec_halt_only rfl, exec_halt_only rfl⟩⟩

end Sys2Proof
end

section
/-! Faults and the console (60_exceptions.md R220 to R223, R232): which instruction raises which fault with which record,
and which instructions leave the console alone. -/
namespace Sys2Proof.Machine

open Sys2Proof.Safety

/-! ### Faults -/

/-- The fault a service raises, from a state that is ready: of the shapes only a failed transaction and an unrecognised
vector end in FAULTED. -/
theorem TrapShape.fault_cases {v : Byte} {s t : State} {f : Fault} (h : TrapShape v s t)
    (hes : s.es = .running .ready) (hf : t.es = .faulted f) :
    (recognisedVector v = false ∧ f = .invalidTrapVector v (s.pc - 1)) ∨
      ∃ port, recognisedVector v = true ∧ f = .consoleIOError port v (s.pc - 1) ∧
        (port = .conIn → v = 0x20 ∨ v = 0x23) ∧ (port = .conOut → v ≠ 0x20) := by
  cases h with
  | wrote ci co bs hv hr ht => subst ht; cases hes.symm.trans hf
  | read ci co bs b hv ht => subst ht; cases hes.symm.trans hf
  | waits svc ci co bs hv hin ht => subst ht; cases hf
  | scans svc ci co bs hv hnz ht => subst ht; cases hf
  | halts ci co bs hv ht => subst ht; cases hf
  | fails port ci co bs hv hin hout ht => subst ht; cases hf; exact .inr ⟨port, hv, rfl, hin, hout⟩
  | invalid hv ht => subst ht; cases hf; exact .inl ⟨hv, rfl⟩

/-- An instruction that faults is a TRAP. -/
theorem ExecShape.trapVector_of_faulted {i : Instr} {s t : State} {f : Fault} (h : ExecShape i s t)
    (hes : s.es = .running .ready) (hf : t.es = .faulted f) : ∃ v, trapVector i = some v := by
  have hcases := h.es_cases hes
  simpa [hf] using hcases

/-- Only the general row of TRAP has a vector that is none of the six (R180). -/
theorem eq_trap_of_not_recognised {i : Instr} {v : Byte} (hi : trapVector i = some v)
    (hv : recognisedVector v = false) : i = .trap v := by
  cases i with
  | trap u => cases hi; rfl
  | getc | out | puts | inChar | putsp | halt => cases hi; cases hv
  | _ => cases hi

/-- Settles O29: an instruction that faults is a TRAP, and its service, after the link, raised the fault. -/
theorem faultsComeOnlyFromTraps : Obligations.FaultsComeOnlyFromTraps := by
  unfold Obligations.FaultsComeOnlyFromTraps
  intro i s t f hes h hf
  have hexec := exec_shape h
  obtain ⟨v, hi⟩ := hexec.trapVector_of_faulted hes hf
  obtain ⟨htrap, -⟩ := hexec.of_trap hi
  rcases htrap.fault_cases hes hf with ⟨hv, hrecord⟩ | ⟨port, hv, hrecord, hin, hout⟩
  · exact .inl ⟨v, eq_trap_of_not_recognised hi hv, hv, hrecord⟩
  · exact .inr ⟨port, v, hi, hv, hrecord, hin, hout⟩

/-! ### The console and the parameters -/

theorem ExecShape.sameConsole {i : Instr} {s t : State} (h : ExecShape i s t) (hi : trapVector i = none) :
    SameConsole s t := by
  cases h with
  | writes dr v hw hf hn hs ht => subst ht; exact ⟨rfl, rfl, rfl⟩
  | stores a v hst hf hn hs ht => subst ht; exact ⟨rfl, rfl, rfl⟩
  | jumps target hc hf hn hs ht => subst ht; exact ⟨rfl, rfl, rfl⟩
  | calls target hc hw hf hn hs ht => subst ht; exact ⟨rfl, rfl, rfl⟩
  | halts hf hn hs ht => subst ht; exact ⟨rfl, rfl, rfl⟩
  | traps v hv hw hf hs hst hc ht => rw [hi] at hv; cases hv

/-- What was written stays written: a TRAP only appends, and no other instruction reaches the console. -/
theorem ExecShape.output_prefix {i : Instr} {s t : State} (h : ExecShape i s t) : s.output <+: t.output := by
  cases hi : trapVector i with
  | none => rw [(h.sameConsole hi).output]
  | some v =>
    obtain ⟨htrap, -⟩ := h.of_trap hi
    exact htrap.output_prefix

theorem ExecShape.cfg_eq {i : Instr} {s t : State} (h : ExecShape i s t) : t.cfg = s.cfg := by
  cases h with
  | writes dr v hw hf hn hs ht => rw [ht]; rfl
  | stores a v hst hf hn hs ht => rw [ht]; rfl
  | jumps target hc hf hn hs ht => rw [ht]; rfl
  | calls target hc hw hf hn hs ht => rw [ht]; rfl
  | halts hf hn hs ht => rw [ht]; rfl
  | traps v hv hw hf hs hst hc ht => exact ht.cfg_eq

/-- Settles O30: of the shapes of an instruction only a TRAP reaches the console, and neither an instruction nor a service
takes back a byte or changes a parameter. -/
theorem consoleOnlyByTraps : Obligations.ConsoleOnlyByTraps := by
  unfold Obligations.ConsoleOnlyByTraps
  refine ⟨fun i s t hi h => (exec_shape h).sameConsole hi, fun s t h => ?_⟩
  by_cases hes : s.es = .running .ready
  · rw [step_ready hes] at h
    exact ⟨(exec_shape h).output_prefix, (exec_shape h).cfg_eq⟩
  · rcases step_cases_of_not_ready hes h with ⟨v, hshape⟩ | rfl
    · exact ⟨hshape.output_prefix, hshape.cfg_eq⟩
    · exact ⟨List.prefix_rfl, rfl⟩

end Sys2Proof.Machine
end

section
/-! Images (70_reset_and_hazards.md R252 to R255): the words an image leaves in memory, the stream it comes as, what LOAD
answers, and the host's boot. -/
namespace Sys2Proof.Machine

open Sys2Proof.Safety

/-! ### The words of an image in memory (R254) -/

/-- An address no word of the image goes to is as before. -/
theorem Memory.read_writeWords_of_ne {b : Word} {ws : List Word} {m : Memory} {a : Word}
    (hne : ∀ j, j < ws.length → a + BitVec.ofNat 16 j ≠ b) :
    Memory.read (Memory.writeWords m a ws) b = Memory.read m b := by
  induction ws generalizing m a with
  | nil => rfl
  | cons w ws ih =>
    have hhead : b ≠ a := by simpa using (hne 0 (Nat.zero_lt_succ _)).symm
    have htail (j : Nat) (hj : j < ws.length) : a + 1 + BitVec.ofNat 16 j ≠ b :=
      addr_succ a j ▸ hne (j + 1) (Nat.succ_lt_succ hj)
    exact (ih htail).trans (Memory.read_write_ne w hhead)

/-- The last word of the image that goes to an address is read there. -/
theorem Memory.read_writeWords_last {b w : Word} {ws : List Word} {m : Memory} {a : Word} {k : Nat}
    (hwf : m.wf = true) (hw : ws[k]? = some w) (hb : a + BitVec.ofNat 16 k = b)
    (hlast : ∀ j, k < j → j < ws.length → a + BitVec.ofNat 16 j ≠ b) :
    Memory.read (Memory.writeWords m a ws) b = w := by
  induction ws generalizing m a k with
  | nil => cases hw
  | cons u ws ih =>
    cases k with
    | zero =>
      obtain rfl : u = w := Option.some.inj hw
      obtain rfl : a = b := by simpa using hb
      have htail (j : Nat) (hj : j < ws.length) : a + 1 + BitVec.ofNat 16 j ≠ a :=
        addr_succ a j ▸ hlast (j + 1) (Nat.succ_pos j) (Nat.succ_lt_succ hj)
      exact (Memory.read_writeWords_of_ne htail).trans (Memory.read_write_self hwf a u)
    | succ k =>
      exact ih (Memory.write_wf hwf a u) hw (addr_succ a k ▸ hb) fun j hkj hj =>
        addr_succ a j ▸ hlast (j + 1) (Nat.succ_lt_succ hkj) (Nat.succ_lt_succ hj)

theorem loadImage_of_created {s : State} (hes : s.es = .created) (origin : Word) (words : List Word) :
    s.loadImage origin words = { s with mem := Memory.writeWords s.mem origin words } := if_pos hes

/-- Settles O3: in CREATED `load_image` is the writes of the words, in order. -/
theorem loadImageWritesInOrder : Obligations.LoadImageWritesInOrder := by
  unfold Obligations.LoadImageWritesInOrder
  intro s origin words a hwf hes
  rw [loadImage_of_created hes]
  exact ⟨fun _ _ => Memory.read_writeWords_last hwf, Memory.read_writeWords_of_ne, fun _ => rfl, rfl, rfl, rfl⟩

/-! ### The stream of an image (R252, R253) -/

theorem highByte_append_lowByte (w : Word) : (highByte w ++ lowByte w : BitVec 16) = w := by
  have hall : highByte w ++ lowByte w = w.extractLsb' 0 16 := BitVec.extractLsb'_append_extractLsb'_eq_extractLsb' rfl
  rw [hall, BitVec.extractLsb'_eq_self]

/-- The big-endian stream of some words is read as those words, with no byte left over. -/
theorem streamWords_flatMap (ws : List Word) :
    streamWords (ws.flatMap fun w => [highByte w, lowByte w]) = (ws, false) := by
  induction ws with
  | nil => rfl
  | cons w ws ih => simp [streamWords, ih, highByte_append_lowByte]

/-- A byte is left over exactly from an odd number of bytes. -/
theorem streamWords_leftover (bytes : List Byte) : (streamWords bytes).2 = decide (bytes.length % 2 = 1) := by
  induction bytes using streamWords.induct with
  | case1 => rfl
  | case2 => rfl
  | case3 hi lo rest ih => simp [streamWords, ih, Nat.add_assoc]

theorem parseImage_of_streamWords {bytes : List Byte} {origin : Word} {words : List Word}
    (h : streamWords bytes = (origin :: words, false)) : parseImage bytes = some (origin, words) := by
  unfold parseImage; rw [h]

theorem parseImage_of_leftover {bytes : List Byte} (h : (streamWords bytes).2 = true) : parseImage bytes = none := by
  unfold parseImage
  split
  case h_1 heq => rw [heq] at h; cases h
  case h_2 => rfl

/-! ### What LOAD answers (R40, R255) -/

/-- In CREATED a stream that is an image is loaded. -/
theorem load_of_image {s : State} (hes : s.es = .created) {bytes : List Byte} {origin : Word} {words : List Word}
    (himage : parseImage bytes = some (origin, words)) (landed : Nat → Bool) :
    s.load (.stream bytes) landed = (s.loadImage origin words, .ok) := by
  simp only [State.load, hes, if_true, himage]

/-- In CREATED any other source is a load failure: a stream that is no image, or bytes that cannot be read to the end. -/
theorem load_fails {s : State} (hes : s.es = .created) {src : ImageSource}
    (hbad : ∀ bytes, src = .stream bytes → parseImage bytes = none) (landed : Nat → Bool) :
    s.load src landed = (s.failedLoad src.bytes landed, .loadError) := by
  cases src with
  | stream bytes => simp only [State.load, hes, if_true, hbad bytes rfl, ImageSource.bytes]
  | unreadable bytes => simp only [State.load, hes, if_true, ImageSource.bytes]

/-- What LOAD can do: it loads an image, it fails, or it is ignored. -/
theorem load_cases (src : ImageSource) (landed : Nat → Bool) (s : State) :
    (∃ origin words, s.load src landed = (s.loadImage origin words, .ok)) ∨
      s.load src landed = (s.failedLoad src.bytes landed, .loadError) ∨ s.load src landed = (s, .ignored) := by
  by_cases hes : s.es = .created
  · by_cases hbad : ∀ bytes, src = .stream bytes → parseImage bytes = none
    · exact .inr (.inl (load_fails hes hbad landed))
    · push Not at hbad
      obtain ⟨bytes, rfl, himage⟩ := hbad
      obtain ⟨⟨origin, words⟩, himage⟩ := Option.ne_none_iff_exists'.mp himage
      exact .inl ⟨origin, words, load_of_image hes himage landed⟩
  · exact .inr (.inr (load_ignored hes src landed))

theorem load_es (src : ImageSource) (landed : Nat → Bool) (s : State) : (s.load src landed).1.es = s.es := by
  obtain ⟨m, h⟩ := load_eq_mem src landed s
  rw [h]

/-- A load failure is answered so, and leaves CREATED (D18). -/
theorem load_fails_created {s : State} (hes : s.es = .created) {src : ImageSource}
    (hbad : ∀ bytes, src = .stream bytes → parseImage bytes = none) (landed : Nat → Bool) :
    (s.load src landed).2 = .loadError ∧ (s.load src landed).1.es = .created :=
  ⟨congrArg Prod.snd (load_fails hes hbad landed), (load_es src landed s).trans hes⟩

/-- Settles O4: the stream of words is read as those words, and whatever is no image is a load failure. -/
theorem imageStreamIsBigEndian : Obligations.ImageStreamIsBigEndian := by
  unfold Obligations.ImageStreamIsBigEndian
  refine ⟨fun origin words => parseImage_of_streamWords (streamWords_flatMap (origin :: words)),
    fun bytes hodd => parseImage_of_leftover (by simp [streamWords_leftover, hodd]), rfl,
    fun s bytes landed hes => ⟨fun hnone => load_fails_created hes ?noImage landed,
      load_fails_created hes ?unreadable landed⟩⟩
  case noImage => rintro _ ⟨⟩; exact hnone
  case unreadable => rintro _ ⟨⟩

/-! ### The canonical form of memory after a LOAD (log 1) -/

theorem Memory.writeWords_wf {m : Memory} (h : m.wf = true) (a : Word) (ws : List Word) :
    (Memory.writeWords m a ws).wf = true := by
  induction ws generalizing m a with
  | nil => exact h
  | cons w ws ih => exact ih (Memory.write_wf h a w) (a + 1)

theorem Memory.writeSomeWords_wf (landed : Nat → Bool) {m : Memory} (h : m.wf = true) (a : Word) (i : Nat)
    (ws : List Word) : (Memory.writeSomeWords landed m a i ws).wf = true := by
  induction ws generalizing m a i with
  | nil => exact h
  | cons w ws ih =>
    rw [Memory.writeSomeWords]
    split
    · exact ih (Memory.write_wf h a w) (a + 1) (i + 1)
    · exact ih h (a + 1) (i + 1)

theorem loadImage_wf {s : State} (h : s.mem.wf = true) (origin : Word) (words : List Word) :
    (s.loadImage origin words).mem.wf = true := by
  unfold State.loadImage
  split
  · exact Memory.writeWords_wf h origin words
  · exact h

theorem failedLoad_wf {s : State} (h : s.mem.wf = true) (bytes : List Byte) (landed : Nat → Bool) :
    (s.failedLoad bytes landed).mem.wf = true := by
  unfold State.failedLoad
  split
  · exact h
  · exact Memory.writeSomeWords_wf landed h _ 0 _

theorem load_wf {s : State} (h : s.mem.wf = true) (src : ImageSource) (landed : Nat → Bool) :
    (s.load src landed).1.mem.wf = true := by
  rcases load_cases src landed s with ⟨origin, words, hload⟩ | hload | hload <;> rw [hload]
  · exact loadImage_wf h origin words
  · exact failedLoad_wf h src.bytes landed
  · exact h

/-! ### START (R256) and the host's boot (R255, R257) -/

theorem start_ignored {s : State} (hes : s.es ≠ .created) : s.start = s := if_neg hes

/-- The boot goes on after a load that is answered ok, and ends at any other. -/
theorem boot_cons (src : ImageSource) (landed : Nat → Bool) (rest : List (ImageSource × (Nat → Bool))) (s : State) :
    State.boot ((src, landed) :: rest) s =
      if (s.load src landed).2 = .ok then State.boot rest (s.load src landed).1 else (s.load src landed).1 := by
  rw [State.boot]
  split
  case h_1 heq => rw [heq, if_pos rfl]
  case h_2 hnotOk heq => rw [heq, if_neg hnotOk]

/-- Booting images is writing each over the ones before it, and going on with the sources after them. -/
theorem boot_images_append {images : List (List Byte × Word × List Word)}
    (himages : ∀ im ∈ images, parseImage im.1 = some im.2) (landed : Nat → Bool)
    (rest : List (ImageSource × (Nat → Bool))) {s : State} (hes : s.es = .created) :
    State.boot ((images.map fun im => (.stream im.1, landed)) ++ rest) s =
      State.boot rest { s with mem := images.foldl (fun m im => Memory.writeWords m im.2.1 im.2.2) s.mem } := by
  induction images generalizing s with
  | nil => rfl
  | cons im images ih =>
    obtain ⟨himage, himages⟩ := List.forall_mem_cons.mp himages
    rw [List.map_cons, List.cons_append, boot_cons, load_of_image hes himage, if_pos rfl, loadImage_of_created hes]
    exact ih himages (s := { s with mem := Memory.writeWords s.mem im.2.1 im.2.2 }) hes

/-- Settles O5: the boot after the images is START where none is left, and ends in CREATED at a source that is none. -/
theorem bootLoadsInOrderThenStarts : Obligations.BootLoadsInOrderThenStarts := by
  unfold Obligations.BootLoadsInOrderThenStarts
  refine fun images landed s hes himages => ⟨?starts, fun bad rest hbad => ?fails⟩
  case starts =>
    rw [← List.append_nil (images.map _)]
    exact boot_images_append himages landed [] hes
  case fails =>
    obtain ⟨hanswer, hcreated⟩ := load_fails_created
      (s := { s with mem := images.foldl (fun m im => Memory.writeWords m im.2.1 im.2.2) s.mem }) hes hbad landed
    rw [boot_images_append himages landed _ hes, boot_cons, hanswer, if_neg (by decide)]
    exact hcreated

end Sys2Proof.Machine
end

section
/-! The host's events keep the invariant (70_reset_and_hazards.md R250 to R259). -/
namespace Sys2Proof.Safety

open Sys2Proof.Machine

/-! ### What keeps the invariant -/

/-- Before the run the invariant is the form of memory and the creation values. -/
theorem inv_of_created {s : State} (hes : s.es = .created) (hmem : s.mem.wf = true)
    (hfresh : SameRegs State.reset s ∧ s.pc = 0 ∧ s.cond = 0 ∧ s.output = []) : Inv s where
  memory := hmem
  created _ := hfresh
  oneFlag h := absurd hes h
  waiting _ h := by cases hes.symm.trans h
  scanning _ h := by cases hes.symm.trans h
  halted h := by cases hes.symm.trans h
  faulted _ h := by cases hes.symm.trans h

theorem inv_creationReset (s : State) : Inv s.creationReset :=
  inv_of_created rfl rfl ⟨fun _ => rfl, rfl, rfl, rfl⟩

/-- Settles O20: a machine just created is one that creation reset has been applied to. -/
theorem resetHasTheInvariant : Obligations.ResetHasTheInvariant := inv_creationReset State.reset

/-- LOAD changes memory alone, and only before the run. -/
theorem Inv.load {s : State} (h : Inv s) (src : ImageSource) (landed : Nat → Bool) : Inv (s.load src landed).1 := by
  by_cases hes : s.es = .created
  · have hwf := load_wf h.memory src landed
    obtain ⟨m, hload⟩ := load_eq_mem src landed s
    rw [hload] at hwf ⊢
    exact inv_of_created hes hwf (h.created hes)
  · rwa [load_ignored hes]

theorem Inv.start {s : State} (h : Inv s) : Inv s.start := by
  by_cases hes : s.es = .created
  · rw [start_of_created hes]
    exact inv_of_engineFits rfl h.memory (.inr (.inl rfl)) trivial
  · rwa [start_ignored hes]

theorem Inv.boot {s : State} (h : Inv s) (images : List (ImageSource × (Nat → Bool))) :
    Inv (State.boot images s) := by
  induction images generalizing s with
  | nil => exact h.start
  | cons image rest ih =>
    rw [boot_cons]
    split
    · exact ih (h.load image.1 image.2)
    · exact h.load image.1 image.2

/-- The invariant does not speak of what the console will answer. -/
theorem Inv.answers {s : State} (h : Inv s) (ci : List InAnswer) (co : OutPort) :
    Inv { s with conIn := ci, conOut := co } :=
  ⟨h.memory, h.created, h.oneFlag, h.waiting, h.scanning, h.halted, h.faulted⟩

/-- Settles O21: each event on its own, and a boot as loads and a START. -/
theorem hostEventsKeepTheInvariant : Obligations.HostEventsKeepTheInvariant := fun s h =>
  ⟨h.load, h.start, h.boot, fun answers => h.answers (s.conIn ++ answers) s.conOut,
    fun p => h.answers s.conIn p, inv_creationReset s⟩

end Sys2Proof.Safety
end

section
/-! Creation, START and the console's answers (70_reset_and_hazards.md R250, R256, R259). -/
namespace Sys2Proof.Machine

open Sys2Proof.Safety

/-! ### START -/

/-- Settles O2: START is one update in CREATED, and none elsewhere. -/
theorem startBeginsTheRun : Obligations.StartBeginsTheRun := by
  unfold Obligations.StartBeginsTheRun
  refine fun s => ⟨fun hes => ?created, start_ignored⟩
  case created =>
    rw [start_of_created hes]
    exact ⟨rfl, rfl, rfl, fun _ => rfl, fun _ => rfl, ⟨rfl, rfl, rfl⟩, rfl, rfl⟩

/-! ### Creation reset (R250) -/

theorem reg_creationReset (s : State) (r : Reg) : s.creationReset.reg r = 0 := by
  simp [State.creationReset, State.reset, State.reg]

theorem creationReset_values (s : State) :
    (∀ r, s.creationReset.reg r = 0) ∧ s.creationReset.pc = 0 ∧ s.creationReset.cond = 0 ∧
      (∀ a, s.creationReset.memRead a = 0) ∧ s.creationReset.es = .created :=
  ⟨reg_creationReset s, rfl, rfl, fun _ => rfl, rfl⟩

theorem ended_iff {s : State} : s.ended = true ↔ s.es = .halted ∨ ∃ f, s.es = .faulted f := by
  unfold State.ended
  cases s.es <;> simp

/-- Settles O1: no event but creation reset is accepted after the end of a run. -/
theorem creationResetValues : Obligations.CreationResetValues := by
  unfold Obligations.CreationResetValues
  refine ⟨creationReset_values, creationReset_values State.reset, fun s hended => ?ended⟩
  case ended =>
    have hes := ended_iff.mp hended
    have hne : s.es ≠ .created := by rcases hes with h | ⟨f, h⟩ <;> simp [h]
    exact ⟨endedMachineStays s (hes.imp_right .inl), start_ignored hne,
      fun src landed => congrArg Prod.fst (load_ignored hne src landed), fun _ => rfl, fun _ => rfl⟩

/-! ### The console's answers (R259) -/

/-- Settles O55: an answer changes its own port, and what OUT then does is what it does on such a port. -/
theorem hostAnswersTheConsole : Obligations.HostAnswersTheConsole := by
  unfold Obligations.HostAnswersTheConsole
  refine fun s => ⟨fun _ => ⟨rfl, rfl, rfl⟩, fun _ => ⟨rfl, rfl⟩, ?accepted, ?fails⟩
  case accepted =>
    obtain ⟨accepted, -⟩ := outWritesTheLowByte (s.answerOutput .accepting)
    obtain ⟨t, hexec, -, hes, -, -, hout⟩ := accepted rfl
    exact ⟨t, hexec, hes, hout⟩
  case fails =>
    obtain ⟨-, fails⟩ := outWritesTheLowByte (s.answerOutput (.failingAfter 0))
    obtain ⟨t, hexec, -, hes, -, hout⟩ := fails rfl
    exact ⟨t, hexec, hes, hout⟩

end Sys2Proof.Machine
end
